-- ==== Sys2Proof/Word.lean ====
section
/-! DEFINITION. The words of the block: a limb is 64 bits (R10), an index field of a command is 8 bits (R84), a command word
is 32 bits (R80), and a limb vector is a list of limbs with limb 0, the least significant, first (R17, R61). -/

namespace Sys2Proof

/-- One limb: "one fixed-width 64-bit digit of a multi-precision integer" (R10). -/
abbrev Word := BitVec 64

/-- A slot or limb index as a command word carries it: 8 bits, unsigned, used as it stands (R84). -/
abbrev Index := BitVec 8

/-- A command word `cmd[31:0]` (R80). -/
abbrev CmdWord := BitVec 32

/-- A limb vector `v[0..W-1]`, `v[0]` the least significant limb (R17, R61). -/
abbrev Limbs := List Word

end Sys2Proof
end

