-- ==== Sys2Proof/Syntax.lean ====
section
/-! DEFINITION. The instructions: one constructor per row of spec/opcode_table.json. The first ten are the host's commands
(R83), the last four the micro-operations of the hardwired sequencer (R89, R145), which no command word issues. The data word
`wdata` of `WRL`, `WRQ` and `WRQI` is not a field of the command word (R80, R90); the machine holds it beside the command. -/

namespace Sys2Proof

/-- The rows of the opcode table. -/
inductive Instr where
  /-- `NOP` (R190). -/
  | nop
  /-- `WRL e<s>[<k>], #<wdata>` (R110). -/
  | wrl (s k : Index)
  /-- `RDL e<s>[<k>]` (R111). -/
  | rdl (s k : Index)
  /-- `WRQ q[<k>], #<wdata>` (R120). -/
  | wrq (k : Index)
  /-- `RDQ q[<k>]` (R121). -/
  | rdq (k : Index)
  /-- `WRQI #<wdata>` (R122). -/
  | wrqi
  /-- `RDQI` (R123). -/
  | rdqi
  /-- `COMMIT` (R124). -/
  | commit
  /-- `MUL e<zd>, e<xs>, e<ys>` (R140). -/
  | mul (zd xs ys : Index)
  /-- `RDST` (R191). -/
  | rdst
  /-- `MAC`, the multiply-accumulate pass (R151). -/
  | mac
  /-- `QUOT`, the quotient digit (R153). -/
  | quot
  /-- `RED`, the reduction pass and the Shift (R154). -/
  | red
  /-- `FRED`, the final reduction (R181). -/
  | fred
  deriving DecidableEq, Repr

end Sys2Proof
end

