-- ==== Sys2Proof/WellFormed.lean ====
section
/-! DEFINITION. Which instructions are well formed as commands. Index fields are 8 bits wide by their type, so the one check
left is that the instruction has an encoding at all: "no command word can issue" a micro-operation "by itself" (R89). -/

namespace Sys2Proof

/-- The instruction is one of the ten commands a host can issue (R83), not a micro-operation (R89). -/
def Instr.isCommand : Instr → Bool
  | .nop => true
  | .wrl _ _ => true
  | .rdl _ _ => true
  | .wrq _ => true
  | .rdq _ => true
  | .wrqi => true
  | .rdqi => true
  | .commit => true
  | .mul _ _ _ => true
  | .rdst => true
  | .mac => false
  | .quot => false
  | .red => false
  | .fred => false

/-- Well formed: the instruction has a command word. -/
abbrev Instr.WellFormed (i : Instr) : Prop := i.isCommand = true

end Sys2Proof
end

