-- ==== Sys2Proof/Decode.lean ====
section
/-! DEFINITION. The decoder of R90, total on 32-bit words, and after it the encoder of R82, R83 and R93. A reserved word is
refused by a name that says why (R85, R86); what the block does with it is the command port's business (R92), not the
decoder's. -/

namespace Sys2Proof

/-- Why a word is RESERVED (R90). -/
inductive DecodeError where
  /-- Bits 3:0, the field `z`, are not zero (R81, R86). -/
  | fieldZNonzero
  /-- The opcode is one of `0xA` to `0xF` (R85). -/
  | reservedOpcode
  /-- A field that the opcode's format marks "mbz" is not zero (R82, R86). -/
  | mustBeZeroNonzero
  deriving DecidableEq, Repr

/-- The field `op`, bits 31:28 (R81). -/
def fieldOp (w : CmdWord) : BitVec 4 := w.extractLsb' 28 4
/-- The field `a`, bits 27:20 (R81). -/
def fieldA (w : CmdWord) : Index := w.extractLsb' 20 8
/-- The field `b`, bits 19:12 (R81). -/
def fieldB (w : CmdWord) : Index := w.extractLsb' 12 8
/-- The field `c`, bits 11:4 (R81). -/
def fieldC (w : CmdWord) : Index := w.extractLsb' 4 8
/-- The field `z`, bits 3:0 (R81). -/
def fieldZ (w : CmdWord) : BitVec 4 := w.extractLsb' 0 4

/-- One line of the decoder's table: the instruction if the format's must-be-zero fields are zero (R90). -/
def ifZero (mbz : Bool) (i : Instr) : Except DecodeError Instr :=
  if mbz then .ok i else .error .mustBeZeroNonzero

/-- The decoder, "as a total function on 32-bit words" (R90). It does not look at `W`, `NE`, `MODE` or `BUSY`. -/
def decode (w : CmdWord) : Except DecodeError Instr :=
  let a := fieldA w
  let b := fieldB w
  let c := fieldC w
  if fieldZ w ≠ 0 then .error .fieldZNonzero
  else
    match (fieldOp w).toNat with
    | 0x0 => ifZero (a == 0 && b == 0 && c == 0) .nop
    | 0x1 => ifZero (c == 0) (.wrl a b)
    | 0x2 => ifZero (c == 0) (.rdl a b)
    | 0x3 => ifZero (a == 0 && c == 0) (.wrq b)
    | 0x4 => ifZero (a == 0 && c == 0) (.rdq b)
    | 0x5 => ifZero (a == 0 && b == 0 && c == 0) .wrqi
    | 0x6 => ifZero (a == 0 && b == 0 && c == 0) .rdqi
    | 0x7 => ifZero (a == 0 && b == 0 && c == 0) .commit
    | 0x8 => .ok (.mul a b c)
    | 0x9 => ifZero (a == 0 && b == 0 && c == 0) .rdst
    | _ => .error .reservedOpcode

/-- A command word put together from its fields `op`, `a`, `b`, `c`, with `z = 0` (R81). -/
def pack (op : BitVec 4) (a b c : Index) : CmdWord := op ++ a ++ b ++ c ++ 0x0#4

/-- The command word of an instruction (R82, R83, R93); a micro-operation has none (R89). -/
def encode : Instr → Option CmdWord
  | .nop => some (pack 0x0 0 0 0)
  | .wrl s k => some (pack 0x1 s k 0)
  | .rdl s k => some (pack 0x2 s k 0)
  | .wrq k => some (pack 0x3 0 k 0)
  | .rdq k => some (pack 0x4 0 k 0)
  | .wrqi => some (pack 0x5 0 0 0)
  | .rdqi => some (pack 0x6 0 0 0)
  | .commit => some (pack 0x7 0 0 0)
  | .mul zd xs ys => some (pack 0x8 zd xs ys)
  | .rdst => some (pack 0x9 0 0 0)
  | .mac => none
  | .quot => none
  | .red => none
  | .fred => none

/-- One row of the opcode map of R83: a word `w` is the row's command exactly when `w AND mask = match`. -/
structure TableRow where
  matchBits : CmdWord
  mask : CmdWord
  deriving DecidableEq, Repr

/-- The row of R83 for an instruction; a micro-operation has neither match nor mask (R89). -/
def tableRow : Instr → Option TableRow
  | .nop => some ⟨0x00000000, 0xFFFFFFFF⟩
  | .wrl _ _ => some ⟨0x10000000, 0xF0000FFF⟩
  | .rdl _ _ => some ⟨0x20000000, 0xF0000FFF⟩
  | .wrq _ => some ⟨0x30000000, 0xFFF00FFF⟩
  | .rdq _ => some ⟨0x40000000, 0xFFF00FFF⟩
  | .wrqi => some ⟨0x50000000, 0xFFFFFFFF⟩
  | .rdqi => some ⟨0x60000000, 0xFFFFFFFF⟩
  | .commit => some ⟨0x70000000, 0xFFFFFFFF⟩
  | .mul _ _ _ => some ⟨0x80000000, 0xF000000F⟩
  | .rdst => some ⟨0x90000000, 0xFFFFFFFF⟩
  | .mac => none
  | .quot => none
  | .red => none
  | .fred => none

/-- The opcode map of R83, its ten rows in the table's order. -/
def opcodeMap : List TableRow :=
  [⟨0x00000000, 0xFFFFFFFF⟩, ⟨0x10000000, 0xF0000FFF⟩, ⟨0x20000000, 0xF0000FFF⟩, ⟨0x30000000, 0xFFF00FFF⟩,
   ⟨0x40000000, 0xFFF00FFF⟩, ⟨0x50000000, 0xFFFFFFFF⟩, ⟨0x60000000, 0xFFFFFFFF⟩, ⟨0x70000000, 0xFFFFFFFF⟩,
   ⟨0x80000000, 0xF000000F⟩, ⟨0x90000000, 0xFFFFFFFF⟩]

/-- The word is the command of this row: `(w AND mask) = match` (R83). -/
def TableRow.fits (r : TableRow) (w : CmdWord) : Bool := w &&& r.mask == r.matchBits

/-- The word whose bits are `w`, of which `nbits` are given and the rest are 0. A command is one 32-bit word (R80). -/
def tableWord (nbits w : Nat) : CmdWord := BitVec.ofNat 32 (w % 2 ^ nbits)

/-- The instruction the decoder reads from an instruction whose bits are `w`; there is one length, 32 bits (R80, R87). -/
def decodeTableWord (nbits w : Nat) : Option Instr :=
  if nbits ≤ 32 then (decode (tableWord nbits w)).toOption else none

end Sys2Proof
end

