-- ==== Sys2Proof/Machine/Limbs.lean ====
section
/-! DEFINITION. Limb vectors as integers (R17) and the arithmetic primitives of R18. Sums and products are formed exactly, as
natural numbers, and narrowed by `lo64` and `hi64`. -/

namespace Sys2Proof.Machine

/-- The limb base `D = 2^64` (R10). -/
def limbBase : Nat := 2 ^ 64

/-- The Montgomery radix `R = 2^(64W)` (R10). -/
def radix (w : Nat) : Nat := 2 ^ (64 * w)

/-- `lo64(v) = v mod 2^64` (R18). -/
def lo64 (v : Nat) : Word := BitVec.ofNat 64 v

/-- `hi64(v) = floor(v / 2^64)`, "used only where `v < 2^128`" (R18). -/
def hi64 (v : Nat) : Word := BitVec.ofNat 64 (v / limbBase)

/-- `mul_lo(a, b)`, "a single 64-bit truncating multiply" (R18). -/
def mulLo (a b : Word) : Word := lo64 (a.toNat * b.toNat)

/-- `val(v)`, the integer a limb vector stands for (R17). -/
def val : Limbs → Nat
  | [] => 0
  | d :: ds => d.toNat + limbBase * val ds

/-- `limbs_W(n)`, the `W`-limb vector of the integer `n` (R17). -/
def limbsOf : Nat → Nat → Limbs
  | 0, _ => []
  | w + 1, n => lo64 n :: limbsOf w (n / limbBase)

end Sys2Proof.Machine
end

