-- ==== Sys2Proof/Config.lean ====
section
/-! DEFINITION. The build-time parameters of the block (R9, R11, R13, R42): fixed for one machine, chosen when it is built. -/

namespace Sys2Proof

/-- The configuration `(W, NE)` (R24): `w` limbs per element and per modulus (R9), `ne` element slots (R11). -/
structure Config where
  w : Nat
  ne : Nat
  deriving DecidableEq, Repr

/-- The ranges the spec gives the parameters: `1 <= W <= 256` (R9) and `1 <= NE <= 256` (R11). -/
abbrev Config.Legal (cfg : Config) : Prop :=
  (1 ≤ cfg.w ∧ cfg.w ≤ 256) ∧ (1 ≤ cfg.ne ∧ cfg.ne ≤ 256)

end Sys2Proof
end

