-- ==== Sys2Proof/Machine/Build.lean ====
section
/-! DEFINITION. The values this model gives the machine of `State.reset` where the spec gives none: the parameters it is built
with and what storage holds when nothing has written it. No statement rests on them. -/

namespace Sys2Proof.Machine

/-- DESIGN CHOICE (log entry 1; unsafe): the `W` and `NE` of the machine of `State.reset`. The spec leaves both open (R9, R11). -/
def builtConfig : Config := ⟨4, 4⟩

/-- DESIGN CHOICE (log entries 2 and 3; unsafe): what a 64-bit register holds after reset where the spec says "unspecified"
(R47, R48). -/
def unwrittenWord : Word := 0

/-- DESIGN CHOICE (log entry 3; unsafe): what a latched slot index holds after reset (R48 says "unspecified"). -/
def unwrittenIndex : Index := 0

/-- DESIGN CHOICE (log entry 3; unsafe): what the loop index `I` holds after reset (R48 says "unspecified"). -/
def unwrittenLoopIndex : Nat := 0

end Sys2Proof.Machine
end

