-- ==== Sys2Proof/Machine/State.lean ====
section
/-! DEFINITION. The state of the machine: every row of R30's table, the build-time parameters (R42), the command port (R41)
with the inputs the host has still to give, and one "written" mark per storage word (spec/93 U3). Then `State.reset` (R48). -/

namespace Sys2Proof.Machine

/-- The bit `MODE`: `SETUP` (0) or `RUN` (1) (R34). -/
inductive Mode where
  | setup
  | run
  deriving DecidableEq, Repr

/-- The sequencer phase `PH`, "one of five values" (R37). -/
inductive Phase where
  | idle
  | multiply
  | quotient
  | reduce
  | finalReduce
  deriving DecidableEq, Repr

/-- What the host presents on the command port: `cmd[31:0]` with `wdata[63:0]` beside it (R80). -/
structure Command where
  cmd : CmdWord
  wdata : Word
  deriving DecidableEq, Repr

/-- One thing the host does. The order of the list of these in `State.host` is the host's own (R15, R95). -/
inductive HostInput where
  /-- The host presents a command and keeps presenting it until it is accepted (R91). -/
  | command (c : Command)
  /-- The host presents nothing for one step of the block. -/
  | idle
  /-- The host is in `WAIT` (R94): it presents nothing for `left` more steps, then an `RDST`, and so again, with `gap + 1` steps
  after each `RDST`, until a response has bit 0 = 0. -/
  | wait (gap left : Nat)
  /-- The host asserts `rst` over one clock edge (R230), with or without a command presented at that edge: such a command "is
  neither executed nor remembered". -/
  | reset (presented : Option Command)
  deriving DecidableEq, Repr

/-- The state. Fields `cfg`, `wdata`, `rspValid`, `rdata`, `host` and the three `written` fields are not in R30's table: the
first is the configuration (R42), the next four the command port (R41), the last three the model's own marks (spec/93 U3). -/
structure State where
  /-- `W` and `NE`, fixed when the block is built (R9, R11); no step changes them. -/
  cfg : Config
  /-- `E`, the element file: `NE` slots of `W` limbs (R31). -/
  e : List Limbs
  /-- `Q`, the modulus, `W` limbs (R32). -/
  q : Limbs
  /-- `QINV0` (R33). -/
  qinv0 : Word
  /-- `MODE` (R34). -/
  mode : Mode
  /-- `BUSY` (R35). -/
  busy : Bool
  /-- `ZD`, the destination slot of the `MUL` in progress (R36). -/
  zd : Index
  /-- `XS`, its first source slot (R36). -/
  xs : Index
  /-- `YS`, its second source slot (R36). -/
  ys : Index
  /-- `PH`, the sequencer phase (R37). -/
  ph : Phase
  /-- `I`, the outer loop index (R37). -/
  i : Nat
  /-- `t[0..W-1]`, the accumulator limbs (R38). -/
  t : Limbs
  /-- `A`, the accumulator carry word (R38). -/
  a : Word
  /-- `C`, the carry of the reduction pass (R38). -/
  c : Word
  /-- `m`, the quotient digit (R38). -/
  m : Word
  /-- `wdata[63:0]`, the data word presented with the command last accepted (R41, R80). -/
  wdata : Word
  /-- `rsp_valid`: the step that led to this state accepted a command, whose response is `rdata` (R41). -/
  rspValid : Bool
  /-- `rdata[63:0]`, the response of the command last accepted (R41). -/
  rdata : Word
  /-- What the host will do next, first first; the environment's, not the block's (R15, R95). -/
  host : List HostInput
  /-- One mark per limb of `E`: a command or a `MUL` has written it since the last reset (spec/93 U3). -/
  eWritten : List (List Bool)
  /-- One mark per limb of `Q` (spec/93 U3). -/
  qWritten : List Bool
  /-- The mark of `QINV0` (spec/93 U3). -/
  qinv0Written : Bool
  deriving DecidableEq, Repr

/-- Why the machine may stop. The block itself "raises no synchronous exception, for any command, in any state" (R200), so
there is no hardware fault; the one reason below is the model's. -/
inductive Fault where
  /-- A meaning was asked for a storage word that the state's lists do not hold. Raised by `WRL`, `RDL`, `WRQ`, `RDQ` and the
  four micro-operations, and only in a state that breaks `State.Inv`, which no run reaches. Safe: the model stops. -/
  | absentStorage
  deriving DecidableEq, Repr

/-- Why an instruction may have no meaning. -/
inductive Refusal where
  /-- Answered by an arm of `exec` whose instruction has no meaning yet. Safe. No arm answers it: every row is modelled. -/
  | notModelled (mnemonic : String)
  deriving DecidableEq, Repr

/-- The machine built with parameters `cfg`, right after reset (R48, R230): `MODE = SETUP`, `BUSY = 0`, `PH = IDLE`; what R48
calls unspecified holds the values that Machine/Build.lean names; nothing is marked written; the port is quiet. -/
def State.resetWith (cfg : Config) : State where
  cfg := cfg
  e := List.replicate cfg.ne (List.replicate cfg.w unwrittenWord)
  q := List.replicate cfg.w unwrittenWord
  qinv0 := unwrittenWord
  mode := .setup
  busy := false
  zd := unwrittenIndex
  xs := unwrittenIndex
  ys := unwrittenIndex
  ph := .idle
  i := unwrittenLoopIndex
  t := List.replicate cfg.w unwrittenWord
  a := unwrittenWord
  c := unwrittenWord
  m := unwrittenWord
  wdata := 0
  rspValid := false
  rdata := 0
  host := []
  eWritten := List.replicate cfg.ne (List.replicate cfg.w false)
  qWritten := List.replicate cfg.w false
  qinv0Written := false

/-- The machine right after reset, built with the parameters of `builtConfig` (log entry 1). -/
def State.reset : State := State.resetWith builtConfig

end Sys2Proof.Machine
end

