-- ==== Sys2Proof/Machine/Flags.lean ====
section
/-! DEFINITION. The block "has no architectural flags or condition codes" (R39). What stands here is all it has of the kind:
the borrow of the Reducer's subtraction, which lives inside one micro-operation, and the `STATUS` view of `MODE` and `BUSY`. -/

namespace Sys2Proof.Machine

/-- `sub_b(a, b, bin)`: the pair `(bout, d)` with `d = (a - b - bin) mod 2^64` and `bout = 1` exactly if `a < b + bin` (R18). -/
def subB (a b : Word) (bin : Bool) : Bool × Word :=
  (decide (a.toNat < b.toNat + bin.toNat), a - b - BitVec.ofNat 64 bin.toNat)

/-- The `MODE` bit as a number: `SETUP` is 0, `RUN` is 1 (R34). -/
def modeBit (mode : Mode) : Bool :=
  match mode with
  | .setup => false
  | .run => true

/-- The `STATUS` word `zext_64(MODE ## BUSY)`: bit 0 is `BUSY`, bit 1 is `MODE`, bits 63:2 read as 0 (R40, R191). -/
def statusWord (s : State) : Word :=
  (BitVec.ofBool (modeBit s.mode) ++ BitVec.ofBool s.busy).setWidth 64

end Sys2Proof.Machine
end

