-- ==== Sys2Proof/Machine/Operands.lean ====
section
/-! DEFINITION. The operand forms. There is one addressing mode, direct by index (R113): an index field is used unchanged and
compared with `NE` or `W` (R84), and the storage it names is one of the four spaces of R60. -/

namespace Sys2Proof.Machine

/-- A location of the block's storage: `E(s, k)`, `Q(k)`, `QINV0` or `STATUS` (R60, R75). -/
inductive Loc where
  | e (s k : Nat)
  | q (k : Nat)
  | qinv0
  | status
  deriving DecidableEq, Repr

/-- A slot index names a slot: `s < NE` (R66, R84). -/
def slotInRange (s : State) (idx : Index) : Bool := decide (idx.toNat < s.cfg.ne)

/-- A limb index names a limb: `k < W` (R66, R84). -/
def limbInRange (s : State) (k : Index) : Bool := decide (k.toNat < s.cfg.w)

/-- The location a slot and limb index name, taken "from the command fields unchanged" (R113). -/
def elementLoc (idx k : Index) : Loc := .e idx.toNat k.toNat

/-- The location a limb index of the modulus names (R60). -/
def modulusLoc (k : Index) : Loc := .q k.toNat

/-- `E[s][k]`, if the state holds it. -/
def limbAt (s : State) (idx k : Nat) : Option Word := s.e[idx]?.bind (fun v => v[k]?)

/-- The whole slot `E[s]`, the operand of a `MUL` (R140), if the state holds it. -/
def slotAt (s : State) (idx : Index) : Option Limbs := s.e[idx.toNat]?

end Sys2Proof.Machine
end

