-- ==== Sys2Proof/Machine/Ops.lean ====
section
/-! DEFINITION. The shared operations: acceptance of a command (R91), an ignored command (R92), the response (R41), access to a
storage word (R75), the "written" marks (spec/93 U3), and reset (R230).

TAKING AN EXCEPTION has no operation here, because there is none to take: "The set of exception causes is empty" (R200), "no
state is saved, no mode changes, no vector table or handler address exists" (R207), and "There is no trap return command"
(R208). What a reader would expect to trap is `ignore` or `held` below (R201). -/

namespace Sys2Proof.Machine

/-- What a meaning answers. -/
abbrev Result := Host.Outcome State Fault Refusal

/-- `rdata <- v`, the response of the command in execution, with `rsp_valid = 1` (R19, R41). -/
def State.respond (s : State) (v : Word) : State := { s with rspValid := true, rdata := v }

/-- An ignored command: accepted, no state of R30 changes, and `rdata = 0` (R92). -/
def ignore (s : State) : Result := .next (s.respond 0)

/-- A held command: "not accepted, no effect" (R91). The host keeps presenting it. -/
def held (s : State) : Result := .next s

/-- The effect of a command that is held while `BUSY = 1` (R91). -/
def whenAccepted (s : State) (effect : State → Result) : Result :=
  if s.busy then held s else effect s

/-- The effect of a micro-operation, which the sequencer performs in one phase only; in any other phase there is no such step
(R89, R145). -/
def whenPhase (p : Phase) (s : State) (effect : State → Result) : Result :=
  if s.ph = p then effect s else .next s

/-- `MemRead(addr, 8)` (R75). -/
def readLoc (s : State) : Loc → Option Word
  | .e idx k => limbAt s idx k
  | .q k => s.q[k]?
  | .qinv0 => some s.qinv0
  | .status => some (statusWord s)

/-- `MemWrite(addr, 8, v)`, "with `STATUS` read-only" (R75). The word written is marked written (spec/93 U3). -/
def writeLoc (s : State) (l : Loc) (v : Word) : Option State :=
  match l with
  | .e idx k =>
    (limbAt s idx k).map fun _ =>
      { s with
        e := s.e.modify idx (fun x => x.set k v)
        eWritten := s.eWritten.modify idx (fun x => x.set k true) }
  | .q k =>
    (s.q[k]?).map fun _ => { s with q := s.q.set k v, qWritten := s.qWritten.set k true }
  | .qinv0 => some { s with qinv0 := v, qinv0Written := true }
  | .status => none

/-- The effect of a read command: the word at a location is the response (R64, R65). -/
def loadWord (l : Loc) (s : State) : Result :=
  match readLoc s l with
  | some v => .next (s.respond v)
  | none => .fault .absentStorage

/-- The effect of a write command: `wdata` goes to a location, and the response is 0 (R64, R96). -/
def storeWord (l : Loc) (s : State) : Result :=
  match writeLoc s l s.wdata with
  | some s' => .next (s'.respond 0)
  | none => .fault .absentStorage

/-- `E[s] <- v`, all `W` limbs in one step (R181, R182), each marked as `written` says. -/
def writeSlot (s : State) (idx : Index) (v : Limbs) (written : Bool) : Option State :=
  (slotAt s idx).map fun _ =>
    { s with
      e := s.e.set idx.toNat v
      eWritten := s.eWritten.set idx.toNat (List.replicate s.cfg.w written) }

/-- Every limb of slot `s` is marked written (spec/93 U3). -/
def slotWritten (s : State) (idx : Index) : Bool :=
  ((s.eWritten[idx.toNat]?).getD []).all id && (s.eWritten[idx.toNat]?).isSome

/-- Every storage word that a `MUL` with these source slots reads is marked written (spec/93 U3). -/
def inputsWritten (s : State) (xs ys : Index) : Bool :=
  slotWritten s xs && slotWritten s ys && s.qWritten.all id && s.qinv0Written

/-- `rst = 1` at the next clock edge (R230). -/
def resetAsserted (s : State) : Bool :=
  match s.host with
  | .reset _ :: _ => true
  | _ => false

/-- A command that is accepted also while `BUSY = 1`: `NOP` or `RDST` (R91). -/
def acceptedWhileBusy (w : CmdWord) : Bool :=
  match decode w with
  | .ok .nop => true
  | .ok .rdst => true
  | _ => false

/-- `cmd_ready` for a presented word: 0 at an edge where `rst = 1` (R230); otherwise 1 when `BUSY = 0`, and when `BUSY = 1` only
for a word that decodes to `NOP` or `RDST` (R91). -/
def cmdReady (s : State) (w : CmdWord) : Bool :=
  !resetAsserted s && (!s.busy || acceptedWhileBusy w)

/-- The output `busy`, which "equals the `BUSY` bit" (R41). -/
def busyOut (s : State) : Bool := s.busy

/-- The output `mode_run`, which "equals the `MODE` bit" (R41). -/
def modeRunOut (s : State) : Bool := modeBit s.mode

/-- The state after a clock edge with `rst = 1`, "whatever it was doing" (R230, R232). The build-time parameters stay, and so
does what the host will do next. -/
def State.afterReset (s : State) (rest : List HostInput) : State :=
  { State.resetWith s.cfg with host := rest }

end Sys2Proof.Machine
end

