-- ==== Sys2Proof/Machine/FieldParameters.lean ====
section
/-! DEFINITION. The field parameter commands `WRQ`, `RDQ`, `WRQI`, `RDQI` and `COMMIT` (spec/41). -/

namespace Sys2Proof.Machine

/-- `WRQ q[<k>], #<wdata>`: `if MODE = RUN or k >= W: ignore else: Q[k] <- wdata; rdata <- 0` (R120). -/
def execWrq (k : Index) (s : State) : Result :=
  whenAccepted s fun s =>
    if s.mode = .setup && limbInRange s k then storeWord (modulusLoc k) s else ignore s

/-- `RDQ q[<k>]`: `if k >= W: ignore else: rdata <- Q[k]` (R121). -/
def execRdq (k : Index) (s : State) : Result :=
  whenAccepted s fun s =>
    if limbInRange s k then loadWord (modulusLoc k) s else ignore s

/-- `WRQI #<wdata>`: `if MODE = RUN: ignore else: QINV0 <- wdata; rdata <- 0` (R122). -/
def execWrqi (s : State) : Result :=
  whenAccepted s fun s =>
    if s.mode = .setup then storeWord .qinv0 s else ignore s

/-- `RDQI`: `rdata <- QINV0` (R123). -/
def execRdqi (s : State) : Result :=
  whenAccepted s fun s => loadWord .qinv0 s

/-- `COMMIT`: `if MODE = RUN: ignore else: MODE <- RUN; rdata <- 0` (R124). It checks nothing. -/
def execCommit (s : State) : Result :=
  whenAccepted s fun s =>
    if s.mode = .setup then .next ({ s with mode := .run }.respond 0) else ignore s

end Sys2Proof.Machine
end

