-- ==== Sys2Proof/Machine/LimbAccess.lean ====
section
/-! DEFINITION. The limb access commands `WRL` and `RDL` (spec/40). Both work the same in SETUP and RUN mode. -/

namespace Sys2Proof.Machine

/-- `WRL e<s>[<k>], #<wdata>`: `if s >= NE or k >= W: ignore else: E[s][k] <- wdata; rdata <- 0` (R110). -/
def execWrl (idx k : Index) (s : State) : Result :=
  whenAccepted s fun s =>
    if slotInRange s idx && limbInRange s k then storeWord (elementLoc idx k) s else ignore s

/-- `RDL e<s>[<k>]`: `if s >= NE or k >= W: ignore else: rdata <- E[s][k]` (R111). -/
def execRdl (idx k : Index) (s : State) : Result :=
  whenAccepted s fun s =>
    if slotInRange s idx && limbInRange s k then loadWord (elementLoc idx k) s else ignore s

end Sys2Proof.Machine
end

