-- ==== Sys2Proof/Machine/Reducer.lean ====
section
/-! DEFINITION. The Reducer: the micro-operation `FRED` and its pure function on limb vectors (spec/43). -/

namespace Sys2Proof.Machine

/-- The subtraction of `FRED`, limb by limb in ascending order: the limbs `s[j]` and the final borrow `b` (R181). -/
def subChain : Limbs → Limbs → Bool → Limbs × Bool
  | t :: ts, q :: qs, b =>
    let r := subB t q b
    let rest := subChain ts qs r.1
    (r.2 :: rest.1, rest.2)
  | _, _, b => ([], b)

/-- `Fred(t, q)`: "if no borrow occurred, commit the subtracted value, else keep the original" (R180, R181). -/
def fred (t q : Limbs) : Limbs :=
  let r := subChain t q false
  if r.2 then t else r.1

/-- `FRED`: `E[ZD] <- Fred(t, Q)`; `PH <- IDLE`; `BUSY <- 0` (R145, R181). The destination is marked written exactly if
everything the `MUL` read was (spec/93 U3). That `t`, `A`, `C`, `m`, `I`, `ZD`, `XS` and `YS` keep their last values until the
next `MUL` is log entry 18, a DESIGN CHOICE: N16 of spec/91 leaves it open, and nothing reads them before they are rewritten. -/
def execFred (s : State) : Result :=
  whenPhase .finalReduce s fun s =>
    match writeSlot s s.zd (fred s.t s.q) (inputsWritten s s.xs s.ys) with
    | some s' => .next { s' with ph := .idle, busy := false }
    | none => .fault .absentStorage

end Sys2Proof.Machine
end

