-- ==== Sys2Proof/Machine/Multiplier.lean ====
section
/-! DEFINITION. The MontgomeryMultiplier (spec/42): the passes as functions on limb vectors in their single-chain form, which
defines the result (R151, R154, D20), the pure functions `Core` and `MontMul` (R158), the command `MUL` (R140, R141) and the
micro-operations `MAC`, `QUOT` and `RED` with the sequencer's moves (R145). -/

namespace Sys2Proof.Machine

/-- The carry-propagating accumulation that both passes are made of: in ascending `j`, `v = t[j] + x[j] * k + carry` exactly,
the limb becomes `lo64(v)` and the carry `hi64(v)` (R151, R154). The limbs, then the carry out. -/
def mulAddChain : Limbs → Limbs → Word → Word → Limbs × Word
  | t :: ts, x :: xs, k, carry =>
    let v := t.toNat + x.toNat * k.toNat + carry.toNat
    let rest := mulAddChain ts xs k (hi64 v)
    (lo64 v :: rest.1, rest.2)
  | _, _, _, carry => ([], carry)

/-- `MACfn(t, x, y[i])`: the accumulator limbs and the carry word `A` after the pass, which starts with `A <- 0` (R151). -/
def macFn (t x : Limbs) (yi : Word) : Limbs × Word := mulAddChain t x yi 0

/-- The quotient digit `m = mul_lo(t[0], QINV0)` (R153). -/
def quotientDigit (t0 qinv0 : Word) : Word := mulLo t0 qinv0

/-- The Shift: `lo64(C + A)`, "the carry out of this addition is discarded" (R156). -/
def shiftLimb (c a : Word) : Word := lo64 (c.toNat + a.toNat)

/-- `REDfn(t, m, q, A)`: the accumulator limbs after the reduction pass and the Shift, and the carry `C` (R154). The low word
of `t[0] + m * q[0]` is dropped (R155). -/
def redFn (t : Limbs) (m : Word) (q : Limbs) (a : Word) : Limbs × Word :=
  match t, q with
  | t0 :: ts, q0 :: qs =>
    let c0 := hi64 (t0.toNat + m.toNat * q0.toNat)
    let r := mulAddChain ts qs m c0
    (r.1 ++ [shiftLimb r.2 a], r.2)
  | _, _ => ([], 0)

/-- One iteration of the loop of R158: the accumulator after `MAC`, `QUOT` and `RED` with the limb `yi`. -/
def coreIteration (x q : Limbs) (qinv0 : Word) (t : Limbs) (yi : Word) : Limbs :=
  let p := macFn t x yi
  let m := quotientDigit (p.1.headD 0) qinv0
  (redFn p.1 m q p.2).1

/-- `Core(x, y, q, qi)`: from a zero accumulator, one iteration for each limb of `y` in ascending order (R158). -/
def coreFn (x y q : Limbs) (qinv0 : Word) : Limbs :=
  y.foldl (coreIteration x q qinv0) (List.replicate q.length 0)

/-- `MontMul(x, y, q, qi) = Fred(Core(x, y, q, qi), q)` (R158). -/
def montMul (x y q : Limbs) (qinv0 : Word) : Limbs := fred (coreFn x y q qinv0) q

/-- `start(zd, xs, ys)`, "the effect of an accepted, not ignored `MUL`, made in one step" (R141). -/
def State.start (s : State) (zd xs ys : Index) : State :=
  { s with
    zd := zd, xs := xs, ys := ys
    t := List.replicate s.cfg.w 0
    i := 0
    ph := .multiply
    busy := true }

/-- `MUL e<zd>, e<xs>, e<ys>` at acceptance: `if MODE = SETUP or zd >= NE or xs >= NE or ys >= NE: ignore else: start(zd, xs,
ys); rdata <- 0` (R140). The sequencer does the rest. -/
def execMul (zd xs ys : Index) (s : State) : Result :=
  whenAccepted s fun s =>
    if s.mode = .run && slotInRange s zd && slotInRange s xs && slotInRange s ys then
      .next ((s.start zd xs ys).respond 0)
    else ignore s

/-- `MAC`, with `PH <- QUOTIENT`: reads `t`, `E[XS]` and `E[YS][I]`, writes `t` and `A` (R145, R151). -/
def execMac (s : State) : Result :=
  whenPhase .multiply s fun s =>
    match slotAt s s.xs, limbAt s s.ys.toNat s.i with
    | some x, some yi =>
      let p := macFn s.t x yi
      .next { s with t := p.1, a := p.2, ph := .quotient }
    | _, _ => .fault .absentStorage

/-- `QUOT`, with `PH <- REDUCE`: reads `t[0]` and `QINV0`, writes `m` (R145, R153). -/
def execQuot (s : State) : Result :=
  whenPhase .quotient s fun s =>
    match s.t with
    | t0 :: _ => .next { s with m := quotientDigit t0 s.qinv0, ph := .reduce }
    | [] => .fault .absentStorage

/-- The sequencer's move out of `REDUCE`: `if I = W-1: PH <- FINALREDUCE else: I <- I + 1; PH <- MULTIPLY` (R145). -/
def State.afterReduce (s : State) : State :=
  if s.i + 1 = s.cfg.w then { s with ph := .finalReduce } else { s with i := s.i + 1, ph := .multiply }

/-- `RED`, with the move out of `REDUCE`: reads `t`, `m`, `Q` and `A`, writes `C` and `t` (R145, R154). -/
def execRed (s : State) : Result :=
  whenPhase .reduce s fun s =>
    match s.t, s.q with
    | _ :: _, _ :: _ =>
      let r := redFn s.t s.m s.q s.a
      .next ({ s with t := r.1, c := r.2 }.afterReduce)
    | _, _ => .fault .absentStorage

end Sys2Proof.Machine
end

