-- ==== Sys2Proof/Machine/StatusControl.lean ====
section
/-! DEFINITION. The status and no-operation commands `NOP` and `RDST` (spec/44). Both are accepted also while `BUSY = 1`. -/

namespace Sys2Proof.Machine

/-- `NOP`: `rdata <- 0`, nothing else (R190). -/
def execNop (s : State) : Result := .next (s.respond 0)

/-- `RDST`: `rdata <- zext_64(MODE ## BUSY)` (R191). -/
def execRdst (s : State) : Result := loadWord .status s

end Sys2Proof.Machine
end

