-- ==== Sys2Proof/Machine/Dispatch.lean ====
section
/-! DEFINITION. The one dispatch from an instruction to its meaning. -/

namespace Sys2Proof.Machine

def exec (i : Instr) (s : State) : Host.Outcome State Fault Refusal :=
  match i with
  | .nop => Sys2Proof.Machine.execNop s
  | .wrl idx k => Sys2Proof.Machine.execWrl idx k s
  | .rdl idx k => Sys2Proof.Machine.execRdl idx k s
  | .wrq k => Sys2Proof.Machine.execWrq k s
  | .rdq k => Sys2Proof.Machine.execRdq k s
  | .wrqi => Sys2Proof.Machine.execWrqi s
  | .rdqi => Sys2Proof.Machine.execRdqi s
  | .commit => Sys2Proof.Machine.execCommit s
  | .mul zd xs ys => Sys2Proof.Machine.execMul zd xs ys s
  | .rdst => Sys2Proof.Machine.execRdst s
  | .mac => Sys2Proof.Machine.execMac s
  | .quot => Sys2Proof.Machine.execQuot s
  | .red => Sys2Proof.Machine.execRed s
  | .fred => Sys2Proof.Machine.execFred s

end Sys2Proof.Machine
end

