-- ==== Sys2Proof/Machine/Port.lean ====
section
/-! DEFINITION. Which agent moves next and with what: the host's command on the port, or the sequencer (R15, R24, R145). -/

namespace Sys2Proof.Machine

/-- What one step of the block does: perform an instruction in a state, or nothing but take the given state. -/
inductive Action where
  | perform (i : Instr) (s : State)
  | settle (s : State)
  deriving DecidableEq, Repr

/-- The sequencer's step: one micro-operation, "chosen by `PH`"; in `IDLE` there is no step (R145). -/
def sequencerAction (s : State) : Action :=
  match s.ph with
  | .idle => .settle s
  | .multiply => .perform .mac s
  | .quotient => .perform .quot s
  | .reduce => .perform .red s
  | .finalReduce => .perform .fred s

/-- An accepted command word: the instruction it decodes to, or, for a RESERVED word, "ignored": no change and `rdata = 0`
(R85, R86, R92). -/
def acceptedAction (w : CmdWord) (s : State) : Action :=
  match decode w with
  | .ok i => .perform i s
  | .error _ => .settle (s.respond 0)

/-- The response of the step before is no longer on the port (R41). -/
def State.quiet (s : State) : State := { s with rspValid := false }

/-- The host's input is used up, and the rest is to come. -/
def State.consume (s : State) (rest : List HostInput) : State := { s with host := rest }

/-- The host's command is accepted: its data word is on the port, and the rest of the host's inputs is to come (R41, R80). -/
def State.accept (s : State) (c : Command) (rest : List HostInput) : State := { s with host := rest, wdata := c.wdata }

/-- The `RDST` of `WAIT`, with its unused data word "driven as 0" (R93, R94). -/
def pollCommand : Command := ⟨0x90000000, 0⟩

/-- `WAIT` ends at a response whose bit 0, `BUSY`, is 0 (R94). -/
def waitEnds (rdata : Word) : Bool := !rdata.getLsbD 0

/-- What a host in `WAIT` goes on with after a poll answered `rdata`: the rest of its inputs, or another poll (R94). -/
def afterPoll (rdata : Word) (gap : Nat) (rest : List HostInput) : List HostInput :=
  if waitEnds rdata then rest else .wait gap (gap + 1) :: rest

/-- What the next step of the block does. A command that is ready is accepted (R91), the `RDST` of a waiting host among them
(R94); while one is held, or the host presents nothing, the sequencer moves; a reset "wins" over everything (R206, R230). -/
def action (s : State) : Action :=
  match s.host with
  | [] => sequencerAction s.quiet
  | .idle :: rest => sequencerAction (s.quiet.consume rest)
  | .wait gap (left + 1) :: rest => sequencerAction (s.quiet.consume (.wait gap left :: rest))
  | .wait gap 0 :: rest =>
    acceptedAction pollCommand.cmd (s.quiet.accept pollCommand (afterPoll (statusWord s) gap rest))
  | .reset _ :: rest => .settle (s.afterReset rest)
  | .command c :: rest =>
    if cmdReady s c.cmd then acceptedAction c.cmd (s.quiet.accept c rest) else sequencerAction s.quiet

/-- The state with a command put in front of what the host will do next. -/
def State.present (s : State) (c : Command) : State := { s with host := .command c :: s.host }

end Sys2Proof.Machine
end

