-- ==== Sys2Proof/Machine/Step.lean ====
section
/-! DEFINITION. One step of the block: what `action` chooses, performed (R24). -/

namespace Sys2Proof.Machine

/-- An action, performed. -/
def runAction : Action → Host.Outcome State Fault Refusal
  | .perform i s => exec i s
  | .settle s => .next s

/-- One step: an accepted command, one micro-operation of the sequencer, or a reset; in a state where the host has no more
commands and `PH = IDLE`, nothing happens ("a run is final", R24). -/
def step (s : State) : Host.Outcome State Fault Refusal := runAction (action s)

/-- `s` with the command whose bits are `w` presented next on the command port, with a data word of zeros (log entry 13). -/
def State.withFetchWord (s : State) (nbits w : Nat) : State := s.present ⟨tableWord nbits w, 0⟩

end Sys2Proof.Machine
end

