-- ==== Sys2Proof/Machine/DualChain.lean ====
section
/-! DEFINITION. The dual-carry-chain realisation of the two passes (R160). "An implementation may use either" (R161); the
machine's step uses the single-chain form, and a statement says the two agree. The carries `cL` and `cH` and the high halves
are not state (R160). -/

namespace Sys2Proof.Machine

/-- The rounds `j >= 1` of a pass: the high-half chain, "shifted one position", takes the high half `h` of the product before,
then the low-half chain takes the low half of this one. What is left at the end is `h + cH + cL`, as an exact sum (R160). -/
def dualChain : Limbs → Limbs → Word → Word → Nat → Nat → Limbs × Nat
  | t :: ts, x :: xs, k, h, cL, cH =>
    let p := x.toNat * k.toNat
    let v := t.toNat + h.toNat + cH
    let u := lo64 v
    let v' := u.toNat + (lo64 p).toNat + cL
    let rest := dualChain ts xs k (hi64 p) (v' / limbBase) (v / limbBase)
    (lo64 v' :: rest.1, rest.2)
  | _, _, _, h, cL, cH => ([], h.toNat + cH + cL)

/-- `MAC` in the dual-chain form: the limbs and `A` (R160). -/
def macDual (t x : Limbs) (yi : Word) : Limbs × Nat :=
  match t, x with
  | t0 :: ts, x0 :: xs =>
    let p := x0.toNat * yi.toNat
    let v := t0.toNat + (lo64 p).toNat
    let rest := dualChain ts xs yi (hi64 p) (v / limbBase) 0
    (lo64 v :: rest.1, rest.2)
  | _, _ => ([], 0)

/-- `RED` in the dual-chain form, before the Shift: the limbs `t[0..W-2]` and `C` (R160). -/
def redDual (t : Limbs) (m : Word) (q : Limbs) : Limbs × Nat :=
  match t, q with
  | t0 :: ts, q0 :: qs =>
    let p := m.toNat * q0.toNat
    let v := t0.toNat + (lo64 p).toNat
    dualChain ts qs m (hi64 p) (v / limbBase) 0
  | _, _ => ([], 0)

end Sys2Proof.Machine
end

