-- ==== Sys2Proof/Machine/Program.lean ====
section
/-! DEFINITION. The host's side of the port: assembler lines and pseudo-instructions as the commands they stand for (R93, R94),
host programs (R95), the value of a fetched element (R112), and one way to compute `qInv0` (R131), which "the block never
runs". -/

namespace Sys2Proof.Machine

/-- One line of a host program: a command with its data word, or a pseudo-instruction (R93, R94). -/
inductive Line where
  /-- A command; `wdata` "is driven as 0" where it is unused (R93), which is the writer's to do. -/
  | plain (i : Instr) (wdata : Word)
  /-- `SQR e<zd>, e<xs>`. -/
  | sqr (zd xs : Index)
  /-- `WRE e<s>, #<n>`, with `n < 2^(64W)`. -/
  | wre (s : Index) (n : Nat)
  /-- `RDE e<s>`. -/
  | rde (s : Index)
  /-- `SETQ #<n>, #<v>`. -/
  | setq (n : Nat) (v : Word)
  /-- `WAIT`; between two polls the host presents nothing for `gap + 1` steps, a number that is the host's own (log entry
  15). -/
  | wait (gap : Nat)
  deriving DecidableEq, Repr

/-- The commands of an instruction with its data word: one, or none for a micro-operation (R89, R93). -/
def commandsOf (i : Instr) (wdata : Word) : List Command :=
  match encode i with
  | some w => [⟨w, wdata⟩]
  | none => []

/-- The limbs of an element or modulus, one write command each, in ascending `k` from `k0` on (R94, R112). -/
def writeLimbs (write : Index → Instr) : Nat → Limbs → List Command
  | _, [] => []
  | k0, v :: vs => commandsOf (write (BitVec.ofNat 8 k0)) v ++ writeLimbs write (k0 + 1) vs

/-- What the host does for a line on a block with `w` limbs: the commands it stands for, and for `WAIT` the loop that `action`
runs (R93, R94). -/
def Line.expand (w : Nat) : Line → List HostInput
  | .plain i wdata => (commandsOf i wdata).map .command
  | .sqr zd xs => (commandsOf (.mul zd xs xs) 0).map .command
  | .wre s n => (writeLimbs (fun k => .wrl s k) 0 (limbsOf w n)).map .command
  | .rde s => ((List.range w).flatMap fun k => commandsOf (.rdl s (BitVec.ofNat 8 k)) 0).map .command
  | .setq n v =>
    (writeLimbs (fun k => .wrq k) 0 (limbsOf w n) ++ commandsOf .wrqi v ++ commandsOf .commit 0).map .command
  | .wait gap => [.wait gap 0]

/-- A host program as inputs of the block, in list order (R95). -/
def programInputs (w : Nat) (lines : List Line) : List HostInput := lines.flatMap (Line.expand w)

/-- The integer that `RDE` fetches: `val` of the responses, limb 0 first (R94, R112). -/
def fetchedValue (responses : Limbs) : Nat := val responses

/-- One round of the iteration for the inverse of `Q[0]`: `inv <- lo64(inv * (2 - Q[0] * inv))` (R131). -/
def inverseRound (q0 inv : Word) : Word := inv * (2 - q0 * inv)

/-- `qInv0` by six rounds from `inv = 1` and `qInv0 = lo64(0 - inv)` (R131). -/
def qInv0Of (q0 : Word) : Word := 0 - Nat.repeat (inverseRound q0) 6 1

end Sys2Proof.Machine
end

