-- ==== Sys2Proof/Safety.lean ====
section
/-! DEFINITION. What the statements call a sound state and a safe run: the invariant of the machine, the contracts the spec puts
on values (R44, R45), and the reads that rest on written storage only (R47, spec/93 U3). Nothing here is checked by the
machine (R126). -/

namespace Sys2Proof.Machine

/-- The parameters are legal and every store has the shape R30 gives it. -/
abbrev State.Shaped (s : State) : Prop :=
  s.cfg.Legal ∧
  s.e.length = s.cfg.ne ∧ (∀ x ∈ s.e, x.length = s.cfg.w) ∧
  s.q.length = s.cfg.w ∧ s.t.length = s.cfg.w ∧
  s.eWritten.length = s.cfg.ne ∧ (∀ x ∈ s.eWritten, x.length = s.cfg.w) ∧
  s.qWritten.length = s.cfg.w

/-- The control state is one the spec allows: "`BUSY = 1` if and only if `PH != IDLE`" (R35), "`0 <= I <= W-1`" (R37), "`BUSY = 1`
never coincides with `MODE = SETUP`" (R129), and the latched slots of a `MUL` in progress are slots (R140). -/
abbrev State.Controlled (s : State) : Prop :=
  (s.busy = true ↔ s.ph ≠ .idle) ∧
  s.i < s.cfg.w ∧
  (s.busy = true → s.mode = .run ∧
    slotInRange s s.zd = true ∧ slotInRange s s.xs = true ∧ slotInRange s s.ys = true)

/-- The invariant of the machine. -/
abbrev State.Inv (s : State) : Prop := s.Shaped ∧ s.Controlled

/-- `ParamsValid` (R44) for a `w`-limb modulus `q` and a word `qinv0`. -/
abbrev ParamsValid (w : Nat) (q : Limbs) (qinv0 : Word) : Prop :=
  q.length = w ∧ val q % 2 = 1 ∧ 2 ^ (64 * (w - 1)) ≤ val q ∧ val q < 2 ^ (64 * w) ∧
  mulLo (q.headD 0) qinv0 = BitVec.ofNat 64 (2 ^ 64 - 1)

/-- `ParamsInDomain`: `ParamsValid` together with `val(Q) < 2^(64W-1)` (R44). -/
abbrev ParamsInDomain (w : Nat) (q : Limbs) (qinv0 : Word) : Prop :=
  ParamsValid w q qinv0 ∧ val q < 2 ^ (64 * w - 1)

/-- `OperandsValid(xs, ys)`: `val(E[xs]) < val(Q)` and `val(E[ys]) < val(Q)` (R45). -/
abbrev OperandsValid (s : State) (xs ys : Index) : Prop :=
  val ((slotAt s xs).getD []) < val s.q ∧ val ((slotAt s ys).getD []) < val s.q

/-- The limb `(idx, k)` of `E` is marked written. -/
abbrev limbWritten (s : State) (idx k : Nat) : Prop := (s.eWritten[idx]?.bind (fun v => v[k]?)) = some true

/-- Every storage word the instruction reads in this state has been written since the last reset; a program that keeps to this
is one that R47 and spec/93 U3 ask for. -/
def readsWritten (i : Instr) (s : State) : Prop :=
  match i with
  | .nop => True
  | .wrl _ _ => True
  | .rdl idx k => slotInRange s idx = true → limbInRange s k = true → limbWritten s idx.toNat k.toNat
  | .wrq _ => True
  | .rdq k => limbInRange s k = true → s.qWritten[k.toNat]? = some true
  | .wrqi => True
  | .rdqi => s.qinv0Written = true
  | .commit => True
  | .mul zd xs ys =>
    s.mode = .run → slotInRange s zd = true → slotInRange s xs = true → slotInRange s ys = true →
      inputsWritten s xs ys = true
  | .rdst => True
  | .mac => inputsWritten s s.xs s.ys = true
  | .quot => inputsWritten s s.xs s.ys = true
  | .red => inputsWritten s s.xs s.ys = true
  | .fred => inputsWritten s s.xs s.ys = true

/-- The parts of the sequencer's scratch that are still to be read before they are written again, phase by phase (R38). -/
def ScratchAgrees (s s' : State) : Prop :=
  match s.ph with
  | .idle => True
  | .multiply => s.t = s'.t
  | .quotient => s.t = s'.t ∧ s.a = s'.a
  | .reduce => s.t = s'.t ∧ s.a = s'.a ∧ s.m = s'.m
  | .finalReduce => s.t = s'.t

/-- Two states differ at most in what the spec leaves unspecified or hides: storage words not written since the last reset (R47),
scratch that is not read before it is written again (R38, R52), `I`, `ZD`, `XS`, `YS` between two `MUL`s (R36, R48), and what the
port showed (R41). -/
def SameWritten (s s' : State) : Prop :=
  s.cfg = s'.cfg ∧ s.mode = s'.mode ∧ s.busy = s'.busy ∧ s.ph = s'.ph ∧ s.host = s'.host ∧
  s.eWritten = s'.eWritten ∧ s.qWritten = s'.qWritten ∧ s.qinv0Written = s'.qinv0Written ∧
  (∀ idx k, limbWritten s idx k → limbAt s idx k = limbAt s' idx k) ∧
  (∀ k : Nat, s.qWritten[k]? = some true → s.q[k]? = s'.q[k]?) ∧
  (s.qinv0Written = true → s.qinv0 = s'.qinv0) ∧
  (s.busy = true → s.i = s'.i ∧ s.zd = s'.zd ∧ s.xs = s'.xs ∧ s.ys = s'.ys ∧
    (inputsWritten s s.xs s.ys = true → ScratchAgrees s s'))

/-- The instruction the next step performs, and the state it performs it in, read only written storage. -/
def stepReadsWritten (s : State) : Prop :=
  match action s with
  | .perform i s' => readsWritten i s'
  | .settle _ => True

/-- A presented word is one that R92 says is ignored: RESERVED, or an index out of range, or the wrong mode (R66, R85, R86). -/
def ignoredCause (s : State) (w : CmdWord) : Prop :=
  match decode w with
  | .error _ => True
  | .ok i =>
    match i with
    | .nop => False
    | .wrl idx k => s.cfg.ne ≤ idx.toNat ∨ s.cfg.w ≤ k.toNat
    | .rdl idx k => s.cfg.ne ≤ idx.toNat ∨ s.cfg.w ≤ k.toNat
    | .wrq k => s.mode = .run ∨ s.cfg.w ≤ k.toNat
    | .rdq k => s.cfg.w ≤ k.toNat
    | .wrqi => s.mode = .run
    | .rdqi => False
    | .commit => s.mode = .run
    | .mul zd xs ys =>
      s.mode = .setup ∨ s.cfg.ne ≤ zd.toNat ∨ s.cfg.ne ≤ xs.toNat ∨ s.cfg.ne ≤ ys.toNat
    | .rdst => False
    | .mac => False
    | .quot => False
    | .red => False
    | .fred => False

/-- The inputs still to come let a `MUL` with this many sequencer steps left complete: no reset is used up before. A command
other than `NOP` and `RDST` is held meanwhile (R91), and a waiting host goes on polling (R94). -/
def letsMulFinish : Nat → List HostInput → Bool
  | _, [] => true
  | 0, _ :: _ => true
  | n + 1, .idle :: rest => letsMulFinish n rest
  | n + 1, .command c :: rest => !acceptedWhileBusy c.cmd || letsMulFinish (n + 1) rest
  | _ + 1, .wait _ _ :: _ => true
  | _ + 1, .reset _ :: _ => false

/-- Whether an action is a micro-operation of the sequencer (R89). -/
def Action.isSequencerStep : Action → Bool
  | .perform i _ => !i.isCommand
  | .settle _ => false

/-- How many of the next `n` steps are sequencer steps. -/
def sequencerSteps : Nat → State → Nat
  | 0, _ => 0
  | n + 1, s =>
    (if (action s).isSequencerStep then 1 else 0) +
      match step s with
      | .next t => sequencerSteps n t
      | .fault _ => 0
      | .refused _ => 0

/-- The next `n` steps are all taken, and the block is busy before each of them. -/
def busyThroughout (n : Nat) (s : State) : Prop :=
  ∀ k, k < n → ∃ v : State, Host.Core.run Sys2Proof.core k s = .next v ∧ v.busy = true

/-- The most steps that one input takes on a block with `w` limbs: a command may be held for all of a `MUL`, and a waiting host
polls once in `gap + 2` steps. -/
def inputSteps (w : Nat) : HostInput → Nat
  | .command _ => 3 * w + 2
  | .idle => 1
  | .wait gap left => left + (gap + 2) * (3 * w + 2)
  | .reset _ => 1

/-- A run is final: `BUSY = 0` and the host has no more commands (R24). -/
abbrev State.Final (s : State) : Prop := s.busy = false ∧ s.host = []

end Sys2Proof.Machine
end

