-- ==== Sys2Proof/Certificates/Slice0/Obligations.lean ====
section
/-! DEFINITION. The statements for the provers, each from the numbered rules of spec/ that its docstring names. Every statement
is over all states, hence over all parameters `W` and `NE`; where it needs a state that a run can reach, it assumes
`State.Inv`, which is itself stated to hold at reset and to be kept. No statement rests on a value that the model chose,
unless its docstring names the log entry. -/

open Sys2Proof Sys2Proof.Machine

/-! ## Encoding -/

/-- One word of each command, taken from the decoder's vectors (V130 to V160), and five RESERVED words (R90). -/
def Obligations.SampleWordsDecode : Prop :=
  decode 0x00000000 = .ok .nop ∧
  decode 0x10FFF000 = .ok (.wrl 15 255) ∧
  decode 0x20302000 = .ok (.rdl 3 2) ∧
  decode 0x30003000 = .ok (.wrq 3) ∧
  decode 0x40003000 = .ok (.rdq 3) ∧
  decode 0x50000000 = .ok .wrqi ∧
  decode 0x60000000 = .ok .rdqi ∧
  decode 0x70000000 = .ok .commit ∧
  decode 0x80123450 = .ok (.mul 1 35 69) ∧
  decode 0x90000000 = .ok .rdst ∧
  decode 0x00000001 = .error .fieldZNonzero ∧
  decode 0x00100000 = .error .mustBeZeroNonzero ∧
  decode 0x40000FF0 = .error .mustBeZeroNonzero ∧
  decode 0x70100000 = .error .mustBeZeroNonzero ∧
  decode 0xB1234560 = .error .reservedOpcode

/-- Every command has a word, and its word decodes to it, at every value of every index field (R82, R83, R90); a
micro-operation has no word (R89). -/
def Obligations.DecodeEncodeRoundTrip : Prop :=
  ∀ i : Instr,
    (i.WellFormed → ∃ w, encode i = some w ∧ decode w = .ok i) ∧
    (¬ i.WellFormed → encode i = none)

/-- A word that decodes is the one word of its instruction, and what it decodes to is a command (R89, R90). -/
def Obligations.DecodedWordIsCanonical : Prop :=
  ∀ (w : CmdWord) (i : Instr), decode w = .ok i → i.WellFormed ∧ encode i = some w

/-- "`match` and `mask` are such that a word `w` is the command exactly when `(w AND mask) = match`" (R83). -/
def Obligations.DecoderAgreesWithOpcodeMap : Prop :=
  ∀ (w : CmdWord) (r : TableRow), r ∈ opcodeMap →
    (r.fits w = true ↔ ∃ i, decode w = .ok i ∧ tableRow i = some r)

/-- A word is RESERVED exactly if it fits no row of the opcode map: a reserved opcode (R85) or a must-be-zero field that is not
zero (R86). -/
def Obligations.ReservedWordsFitNoRow : Prop :=
  ∀ w : CmdWord, (∃ e, decode w = .error e) ↔ ∀ r ∈ opcodeMap, r.fits w = false

/-! ## The step: acceptance, the sequencer, reset -/

/-- A step runs the decoded command: with a command presented that is ready and decodes, the step is `exec` of it in the state
whose data word is the command's, whose inputs are the rest, and whose port is quiet (R41, R91). -/
def Obligations.StepRunsTheDecodedCommand : Prop :=
  ∀ (s : State) (c : Command) (rest : List HostInput) (i : Instr),
    s.host = .command c :: rest → cmdReady s c.cmd = true → decode c.cmd = .ok i →
    step s = exec i { s with host := rest, wdata := c.wdata, rspValid := false }

/-- Ignored means "exactly: the command is accepted, no bit of the state of R30 changes, and `rdata = 0`", for each of the four
causes (R92). -/
def Obligations.IgnoredCommandsChangeNothing : Prop :=
  ∀ (s : State) (c : Command) (rest : List HostInput),
    s.host = .command c :: rest → s.busy = false → ignoredCause s c.cmd →
    step s = .next { s with host := rest, wdata := c.wdata, rspValid := true, rdata := 0 }

/-- Acceptance (R91): which words are ready, at an edge without reset (R230); a word that is not ready has no effect, the step
being the one taken if the host presented nothing and the command came after; and it is not dropped but becomes ready within
`3W + 1` steps. -/
def Obligations.HeldCommandsWaitForTheMul : Prop :=
  (∀ (s : State) (w : CmdWord),
    cmdReady s w = true ↔
      (∀ presented rest, s.host ≠ .reset presented :: rest) ∧
      (s.busy = false ∨ decode w = .ok .nop ∨ decode w = .ok .rdst)) ∧
  (∀ (s : State) (c : Command) (rest : List HostInput),
    s.host = .command c :: rest → cmdReady s c.cmd = false →
    step s = step { s with host := .idle :: s.host }) ∧
  (∀ (s : State) (c : Command) (rest : List HostInput),
    s.Inv → s.host = .command c :: rest →
    ∃ (n : Nat) (t : State), n ≤ 3 * s.cfg.w + 1 ∧ Host.Core.run Sys2Proof.core n s = .next t ∧
      t.host = s.host ∧ cmdReady t c.cmd = true)

/-- The sequencer's step is chosen by `PH`, and there is none in `IDLE` (R145): stated for a step with no command on the port,
which is one with no input left, with an idle input, or between two polls of a waiting host (R94). Three things in it are the
model's own choice: that `rsp_valid` is lowered in each of these steps (log entry 8), that there is a step in `IDLE` with
nothing to do and it changes nothing else (log entry 14), and that a micro-operation asked for in another phase does nothing
(log entry 9). -/
def Obligations.SequencerStepChosenByPhase : Prop :=
  (∀ (s : State) (rest : List HostInput),
    (s.host = [] ∧ rest = []) ∨ s.host = .idle :: rest ∨
      (∃ gap left after, s.host = .wait gap (left + 1) :: after ∧ rest = .wait gap left :: after) →
    step s =
      (match s.ph with
        | .idle => .next { s with host := rest, rspValid := false }
        | .multiply => exec .mac { s with host := rest, rspValid := false }
        | .quotient => exec .quot { s with host := rest, rspValid := false }
        | .reduce => exec .red { s with host := rest, rspValid := false }
        | .finalReduce => exec .fred { s with host := rest, rspValid := false })) ∧
  (∀ s : State,
    (s.ph ≠ .multiply → exec .mac s = .next s) ∧ (s.ph ≠ .quotient → exec .quot s = .next s) ∧
    (s.ph ≠ .reduce → exec .red s = .next s) ∧ (s.ph ≠ .finalReduce → exec .fred s = .next s))

/-- Reset (R230): at that edge no word is ready; "whatever it was doing", the block is in SETUP mode, not busy and idle, a
command presented at that edge is neither executed nor remembered, and once `rst` is 0 again every command is accepted. The
build-time parameters stay (R9, R42). Two clauses are the model's own choice: that no response is shown right after a reset
(`rsp_valid = 0`, log entry 8) and that the later inputs of the host stay (log entry 12). -/
def Obligations.ResetInputRestoresTheResetState : Prop :=
  ∀ (s : State) (presented : Option Command) (rest : List HostInput),
    s.host = .reset presented :: rest →
    (∀ w, cmdReady s w = false) ∧
    ∃ t, step s = .next t ∧
      t.mode = .setup ∧ t.busy = false ∧ t.ph = .idle ∧ t.rspValid = false ∧ t.cfg = s.cfg ∧ t.host = rest ∧
      ((∀ p r, rest ≠ .reset p :: r) → ∀ w, cmdReady t w = true) ∧
      (∀ other, step { s with host := .reset other :: rest } = step s)

/-- The reset values the spec gives (R48), for every legal choice of parameters and for `State.reset`. -/
def Obligations.ResetStateValues : Prop :=
  (∀ cfg : Config,
    (State.resetWith cfg).mode = .setup ∧ (State.resetWith cfg).busy = false ∧
    (State.resetWith cfg).ph = .idle ∧ statusWord (State.resetWith cfg) = 0x0000000000000000 ∧
    busyOut (State.resetWith cfg) = false ∧ modeRunOut (State.resetWith cfg) = false) ∧
  State.reset = State.resetWith builtConfig

/-! ## The commands: completion, result and frame -/

/-- `NOP` (R190): the word `0x00000000`; accepted whatever `BUSY` is, unless at a reset (R230); `rdata <- 0`, nothing else. -/
def Obligations.NopChangesNothing : Prop :=
  encode .nop = some 0x00000000 ∧
  ∀ s : State, ((∀ p r, s.host ≠ .reset p :: r) → cmdReady s 0x00000000 = true) ∧
    exec .nop s = .next { s with rspValid := true, rdata := 0 }

/-- `WRL` (R110): its word; held while `BUSY = 1`; ignored for an index out of range; otherwise, in either mode, `E[s][k] <-
wdata`, `rdata <- 0`, and every other limb and everything else the spec gives the block as it was. The clauses on `limbWritten`
are about the model's own written marks (log entry 6, from spec/93 U3): the limb's mark is set and no other changes. -/
def Obligations.WrlWritesOneLimb : Prop :=
  ∀ (s : State) (idx k : Index),
    encode (.wrl idx k) = some (0x10000000 ||| (idx.setWidth 32 <<< 20) ||| (k.setWidth 32 <<< 12)) ∧
    (s.busy = true → exec (.wrl idx k) s = .next s) ∧
    (s.busy = false → s.cfg.ne ≤ idx.toNat ∨ s.cfg.w ≤ k.toNat →
      exec (.wrl idx k) s = .next { s with rspValid := true, rdata := 0 }) ∧
    (s.Inv → s.busy = false → idx.toNat < s.cfg.ne → k.toNat < s.cfg.w →
      ∃ t, exec (.wrl idx k) s = .next t ∧
        limbAt t idx.toNat k.toNat = some s.wdata ∧ limbWritten t idx.toNat k.toNat ∧
        (∀ a b, (a, b) ≠ (idx.toNat, k.toNat) →
          limbAt t a b = limbAt s a b ∧ (limbWritten t a b ↔ limbWritten s a b)) ∧
        t = { s with e := t.e, eWritten := t.eWritten, rspValid := true, rdata := 0 })

/-- `RDL` (R111): its word; held while `BUSY = 1`; ignored for an index out of range; otherwise, in either mode, `rdata <-
E[s][k]` and no state changed. -/
def Obligations.RdlReadsOneLimb : Prop :=
  ∀ (s : State) (idx k : Index),
    encode (.rdl idx k) = some (0x20000000 ||| (idx.setWidth 32 <<< 20) ||| (k.setWidth 32 <<< 12)) ∧
    (s.busy = true → exec (.rdl idx k) s = .next s) ∧
    (s.busy = false → s.cfg.ne ≤ idx.toNat ∨ s.cfg.w ≤ k.toNat →
      exec (.rdl idx k) s = .next { s with rspValid := true, rdata := 0 }) ∧
    (s.Inv → s.busy = false → idx.toNat < s.cfg.ne → k.toNat < s.cfg.w →
      ∃ v, limbAt s idx.toNat k.toNat = some v ∧
        exec (.rdl idx k) s = .next { s with rspValid := true, rdata := v })

/-- `WRQ` (R120): its word; held while `BUSY = 1`; ignored in RUN mode or for an index out of range; otherwise `Q[k] <- wdata`,
whatever its value, `rdata <- 0`, and every other limb of `Q` and everything else the spec gives the block as it was. The
clauses on `qWritten` are about the model's own written marks (log entry 6, from spec/93 U3): the limb's mark is set and no
other changes. -/
def Obligations.WrqWritesOneModulusLimbInSetup : Prop :=
  ∀ (s : State) (k : Index),
    encode (.wrq k) = some (0x30000000 ||| (k.setWidth 32 <<< 12)) ∧
    (s.busy = true → exec (.wrq k) s = .next s) ∧
    (s.busy = false → s.mode = .run ∨ s.cfg.w ≤ k.toNat →
      exec (.wrq k) s = .next { s with rspValid := true, rdata := 0 }) ∧
    (s.Inv → s.busy = false → s.mode = .setup → k.toNat < s.cfg.w →
      ∃ t, exec (.wrq k) s = .next t ∧
        t.q[k.toNat]? = some s.wdata ∧ t.qWritten[k.toNat]? = some true ∧
        (∀ j, j ≠ k.toNat → t.q[j]? = s.q[j]? ∧ t.qWritten[j]? = s.qWritten[j]?) ∧
        t = { s with q := t.q, qWritten := t.qWritten, rspValid := true, rdata := 0 })

/-- `RDQ` (R121): its word; held while `BUSY = 1`; ignored for an index out of range; otherwise, in both modes, `rdata <- Q[k]`
and no state changed. -/
def Obligations.RdqReadsOneModulusLimb : Prop :=
  ∀ (s : State) (k : Index),
    encode (.rdq k) = some (0x40000000 ||| (k.setWidth 32 <<< 12)) ∧
    (s.busy = true → exec (.rdq k) s = .next s) ∧
    (s.busy = false → s.cfg.w ≤ k.toNat →
      exec (.rdq k) s = .next { s with rspValid := true, rdata := 0 }) ∧
    (s.Inv → s.busy = false → k.toNat < s.cfg.w →
      ∃ v, s.q[k.toNat]? = some v ∧ exec (.rdq k) s = .next { s with rspValid := true, rdata := v })

/-- `WRQI` (R122): its word; held while `BUSY = 1`; ignored in RUN mode; otherwise `QINV0 <- wdata`, unchecked, `rdata <- 0`,
and everything else the spec gives the block as it was. That `qinv0Written` becomes true is the model's own written mark (log
entry 6, from spec/93 U3). -/
def Obligations.WrqiWritesQinv0InSetup : Prop :=
  encode .wrqi = some 0x50000000 ∧
  ∀ s : State,
    (s.busy = true → exec .wrqi s = .next s) ∧
    (s.busy = false → s.mode = .run → exec .wrqi s = .next { s with rspValid := true, rdata := 0 }) ∧
    (s.busy = false → s.mode = .setup →
      exec .wrqi s = .next { s with qinv0 := s.wdata, qinv0Written := true, rspValid := true, rdata := 0 })

/-- `RDQI` (R123): its word; held while `BUSY = 1`; otherwise, in both modes, `rdata <- QINV0` and no state changed. -/
def Obligations.RdqiReadsQinv0 : Prop :=
  encode .rdqi = some 0x60000000 ∧
  ∀ s : State,
    (s.busy = true → exec .rdqi s = .next s) ∧
    (s.busy = false → exec .rdqi s = .next { s with rspValid := true, rdata := s.qinv0 })

/-- `COMMIT` (R124): its word; held while `BUSY = 1`; ignored in RUN mode; otherwise `MODE <- RUN`, `rdata <- 0`, with no
condition on the parameters, and everything else as it was; `RDST` then returns 2 where before it returned 0; and no command
returns to SETUP mode. -/
def Obligations.CommitFreezesTheParameters : Prop :=
  encode .commit = some 0x70000000 ∧
  ∀ s : State,
    (s.busy = true → exec .commit s = .next s) ∧
    (s.busy = false → s.mode = .run → exec .commit s = .next { s with rspValid := true, rdata := 0 }) ∧
    (s.busy = false → s.mode = .setup →
      ∃ t, exec .commit s = .next t ∧ t = { s with mode := .run, rspValid := true, rdata := 0 } ∧
        statusWord s = 0x0000000000000000 ∧ statusWord t = 0x0000000000000002) ∧
    (s.mode = .run → ∀ i t, exec i s = .next t → t.mode = .run)

/-- `MUL` at acceptance (R140, R141): its word; held while `BUSY = 1`; ignored in SETUP mode or for a slot index out of range;
otherwise `start(zd, xs, ys)` in one step, `rdata <- 0`, and everything else, the element file included, as it was. -/
def Obligations.MulStartsTheSequencer : Prop :=
  ∀ (s : State) (zd xs ys : Index),
    encode (.mul zd xs ys) =
      some (0x80000000 ||| (zd.setWidth 32 <<< 20) ||| (xs.setWidth 32 <<< 12) ||| (ys.setWidth 32 <<< 4)) ∧
    (s.busy = true → exec (.mul zd xs ys) s = .next s) ∧
    (s.busy = false →
      s.mode = .setup ∨ s.cfg.ne ≤ zd.toNat ∨ s.cfg.ne ≤ xs.toNat ∨ s.cfg.ne ≤ ys.toNat →
      exec (.mul zd xs ys) s = .next { s with rspValid := true, rdata := 0 }) ∧
    (s.busy = false → s.mode = .run → zd.toNat < s.cfg.ne → xs.toNat < s.cfg.ne → ys.toNat < s.cfg.ne →
      exec (.mul zd xs ys) s =
        .next { s with
          zd := zd, xs := xs, ys := ys, t := List.replicate s.cfg.w 0, i := 0, ph := .multiply, busy := true,
          rspValid := true, rdata := 0 })

/-- `RDST` (R191, R40): its word; accepted whatever `BUSY` is, unless at a reset (R230); bit 0 of `rdata` is `BUSY`, bit 1 is `MODE`, bits 63:2
are 0, and no state changes; of the four values, three occur. -/
def Obligations.RdstReturnsTheStatus : Prop :=
  encode .rdst = some 0x90000000 ∧
  ∀ s : State, ((∀ p r, s.host ≠ .reset p :: r) → cmdReady s 0x90000000 = true) ∧
    ∃ v : Word, exec .rdst s = .next { s with rspValid := true, rdata := v } ∧
      v.getLsbD 0 = s.busy ∧ (v.getLsbD 1 = true ↔ s.mode = .run) ∧ (∀ j, 2 ≤ j → v.getLsbD j = false) ∧
      (s.Inv → v = 0 ∨ v = 2 ∨ v = 3)

/-! ## The micro-operations: completion, result and frame -/

/-- `MAC` (R151): with `A <- 0` first, in ascending `j` the exact `v = t[j] + E[XS][j] * E[YS][I] + A`, at most `2^128 - 1`,
leaves `lo64(v)` in `t[j]` and `hi64(v)` in `A`; then `PH` is `QUOTIENT` (R145), and everything else is as it was. The
function `carry` gives `A` before each round. -/
def Obligations.MacAccumulatesLimbByLimb : Prop :=
  ∀ s : State, s.Inv → s.ph = .multiply →
    ∃ (x : Limbs) (yi : Word) (t' : Limbs) (carry : Nat → Word),
      slotAt s s.xs = some x ∧ limbAt s s.ys.toNat s.i = some yi ∧
      exec .mac s = .next { s with t := t', a := carry s.cfg.w, ph := .quotient } ∧
      t'.length = s.cfg.w ∧ carry 0 = 0 ∧
      ∀ j, j < s.cfg.w → ∃ tj xj : Word, s.t[j]? = some tj ∧ x[j]? = some xj ∧
        tj.toNat + xj.toNat * yi.toNat + (carry j).toNat ≤ 2 ^ 128 - 1 ∧
        t'[j]? = some (lo64 (tj.toNat + xj.toNat * yi.toNat + (carry j).toNat)) ∧
        carry (j + 1) = hi64 (tj.toNat + xj.toNat * yi.toNat + (carry j).toNat)

/-- `MAC` is exact (R152): `val(t) + A * D^W = T + X * y[I]`, for every content of `t`, `x` and `y`. -/
def Obligations.MacIsExact : Prop :=
  ∀ (t x : Limbs) (yi : Word), t.length = x.length →
    (macFn t x yi).1.length = x.length ∧
    val (macFn t x yi).1 + (macFn t x yi).2.toNat * radix x.length = val t + val x * yi.toNat

/-- `QUOT` (R153): `m <- (t[0] * QINV0) mod 2^64`; then `PH` is `REDUCE` (R145), and everything else is as it was. -/
def Obligations.QuotTakesTheQuotientDigit : Prop :=
  ∀ s : State, s.Inv → s.ph = .quotient →
    ∃ t0 m' : Word, s.t[0]? = some t0 ∧ m'.toNat = t0.toNat * s.qinv0.toNat % 2 ^ 64 ∧
      exec .quot s = .next { s with m := m', ph := .reduce }

/-- `RED` (R154): the low word of `t[0] + m * Q[0]` is dropped and `C` is its high word; in ascending `j >= 1` the exact `v =
t[j] + m * Q[j] + C` leaves `lo64(v)` in `t[j-1]` and `hi64(v)` in `C`; the Shift leaves `lo64(C + A)` in `t[W-1]`. Then the
sequencer goes on to the next `I`, or to `FINALREDUCE` after the last (R145), and everything else is as it was. The function
`carry` gives `C` after each round. -/
def Obligations.RedReducesAndShifts : Prop :=
  ∀ s : State, s.Inv → s.ph = .reduce →
    ∃ (t' : Limbs) (carry : Nat → Word) (t0 q0 : Word),
      s.t[0]? = some t0 ∧ s.q[0]? = some q0 ∧
      carry 0 = hi64 (t0.toNat + s.m.toNat * q0.toNat) ∧
      exec .red s =
        .next (if s.i + 1 = s.cfg.w then { s with t := t', c := carry (s.cfg.w - 1), ph := .finalReduce }
               else { s with t := t', c := carry (s.cfg.w - 1), ph := .multiply, i := s.i + 1 }) ∧
      t'.length = s.cfg.w ∧
      (∀ j, 1 ≤ j → j < s.cfg.w → ∃ tj qj : Word, s.t[j]? = some tj ∧ s.q[j]? = some qj ∧
        tj.toNat + s.m.toNat * qj.toNat + (carry (j - 1)).toNat ≤ 2 ^ 128 - 1 ∧
        t'[j - 1]? = some (lo64 (tj.toNat + s.m.toNat * qj.toNat + (carry (j - 1)).toNat)) ∧
        carry j = hi64 (tj.toNat + s.m.toNat * qj.toNat + (carry (j - 1)).toNat)) ∧
      t'[s.cfg.w - 1]? = some (lo64 ((carry (s.cfg.w - 1)).toNat + s.a.toNat))

/-- The dropped low word is zero when `lo64(Q[0] * QINV0) = D - 1` (R155). -/
def Obligations.DroppedWordIsZero : Prop :=
  ∀ t0 q0 qinv0 : Word, mulLo q0 qinv0 = BitVec.ofNat 64 (2 ^ 64 - 1) →
    lo64 (t0.toNat + (quotientDigit t0 qinv0).toNat * q0.toNat) = 0

/-- `RED` is exact up to the Shift (R157): the limbs and `C` hold `floor((T' + m * Qv) / D)`; `val(t)` is the unwrapped value `U`
modulo `D^W`, equal to it exactly when `C + A < D`; `U < 2 * D^W`; and with the `MAC` before it, `U = floor((T + X * y[I] + m *
Qv) / D)`. -/
def Obligations.RedIsExactUpToTheShift : Prop :=
  ∀ (w : Nat) (t q : Limbs) (m a : Word), 1 ≤ w → t.length = w → q.length = w →
    val (redFn t m q a).1.dropLast + (redFn t m q a).2.toNat * radix (w - 1) =
      (val t + m.toNat * val q) / limbBase ∧
    val (redFn t m q a).1 = ((val t + m.toNat * val q) / limbBase + a.toNat * radix (w - 1)) % radix w ∧
    (val (redFn t m q a).1 = (val t + m.toNat * val q) / limbBase + a.toNat * radix (w - 1) ↔
      (redFn t m q a).2.toNat + a.toNat < limbBase) ∧
    (val t + m.toNat * val q) / limbBase + a.toNat * radix (w - 1) < 2 * radix w ∧
    (∀ (tb x : Limbs) (yi : Word), tb.length = w → x.length = w → macFn tb x yi = (t, a) →
      (val t + m.toNat * val q) / limbBase + a.toNat * radix (w - 1) =
        (val tb + val x * yi.toNat + m.toNat * val q) / limbBase)

/-- `FRED` (R181): `E[ZD]` becomes `limbs_W(val(t) - val(Q))` if `val(t) >= val(Q)`, else `t`, all `W` limbs in the one step;
`PH <- IDLE` and `BUSY <- 0` (R145); every other slot and everything else the spec gives the block is as it was, the hidden
scratch too (log entry 18, the model's choice). The final borrow is 1 exactly when `val(t) < val(Q)`, and the difference is
`(val(t) - val(Q)) mod 2^(64W)`. The clause on `eWritten` is the model's own written mark (log entry 6, from spec/93 U3): the
destination counts as written exactly if all the `MUL` read was. -/
def Obligations.FredCommitsTheReducedValue : Prop :=
  ∀ s : State, s.Inv → s.ph = .finalReduce →
    s.zd.toNat < s.e.length ∧
    (subChain s.t s.q false).2 = decide (val s.t < val s.q) ∧
    val (subChain s.t s.q false).1 = (val s.t + radix s.cfg.w - val s.q) % radix s.cfg.w ∧
    exec .fred s =
      .next { s with
        e := s.e.set s.zd.toNat (if val s.q ≤ val s.t then limbsOf s.cfg.w (val s.t - val s.q) else s.t)
        eWritten := s.eWritten.set s.zd.toNat (List.replicate s.cfg.w (inputsWritten s s.xs s.ys))
        ph := .idle
        busy := false }

/-! ## The arithmetic -/

/-- `val` and `limbs_W` are inverse, and a limb vector's value is below `2^(64W)` (R17). -/
def Obligations.LimbVectorsAreIntegers : Prop :=
  (∀ v : Limbs, val v < radix v.length ∧ limbsOf v.length (val v) = v) ∧
  (∀ w n : Nat, n < radix w → (limbsOf w n).length = w ∧ val (limbsOf w n) = n)

/-- The Reducer's contract (R183), and what it does out of contract (R184). -/
def Obligations.ReducerSubtractsAtMostOnce : Prop :=
  ∀ t q : Limbs, t.length = q.length →
    (val t < 2 * val q → val (fred t q) = val t % val q) ∧
    (2 * val q ≤ val t → val (fred t q) = val t - val q ∧ val q ≤ val (fred t q))

/-- The dual-chain forms give the same `t`, `A` and `C` as the single-chain forms, for every input, and their last sum is at most
`D - 1` (R161). -/
def Obligations.DualChainsAgreeWithSingleChain : Prop :=
  (∀ (t x : Limbs) (yi : Word),
    (macDual t x yi).1 = (macFn t x yi).1 ∧ (macDual t x yi).2 = (macFn t x yi).2.toNat) ∧
  (∀ (t q : Limbs) (m a : Word), t ≠ [] → q ≠ [] →
    (redDual t m q).2 = (redFn t m q a).2.toNat ∧
    (redFn t m q a).1 = (redDual t m q).1 ++ [lo64 ((redDual t m q).2 + a.toNat)])

/-- For valid parameters and `X + Qv <= D^W`, whether or not `X < Qv`, the almost-reduced value is below `X + Qv` and congruent
to `x * y * R⁻¹` (R162, R163, R164, R169). -/
def Obligations.AlmostReducedValueIsBounded : Prop :=
  ∀ (w : Nat) (x y q : Limbs) (qinv0 : Word), 1 ≤ w → x.length = w → y.length = w →
    ParamsValid w q qinv0 → val x + val q ≤ radix w →
    val (coreFn x y q qinv0) < val x + val q ∧
    val (coreFn x y q qinv0) * radix w % val q = val x * val y % val q

/-- A zero source gives zero, "for every parameter value, valid or not" (R168, its first two rows). -/
def Obligations.ZeroSourceGivesZero : Prop :=
  ∀ (w : Nat) (v q : Limbs) (qinv0 : Word), v.length = w → q.length = w →
    montMul v (List.replicate w 0) q qinv0 = List.replicate w 0 ∧
    montMul (List.replicate w 0) v q qinv0 = List.replicate w 0

/-- Corner cases in contract (R168): multiplying by `1_mont` gives `x` back, by 1 converts out of Montgomery form, by `R^2 mod q`
converts into it, exchanging sources below `q` changes nothing, and `(q - 1) * (q - 1)` gives `R⁻¹`. -/
def Obligations.MontgomeryCornerCases : Prop :=
  ∀ (w : Nat) (x y q : Limbs) (qinv0 : Word), 1 ≤ w → x.length = w → y.length = w →
    ParamsInDomain w q qinv0 → val x < val q →
    (val y = radix w % val q → montMul x y q qinv0 = x) ∧
    (val y = 1 → val (montMul x y q qinv0) * radix w % val q = val x) ∧
    (val y = radix w ^ 2 % val q → val (montMul x y q qinv0) = val x * radix w % val q) ∧
    (val y < val q → montMul x y q qinv0 = montMul y x q qinv0) ∧
    (val x = val q - 1 → val y = val q - 1 → val (montMul x y q qinv0) * radix w % val q = 1 % val q)

/-- For an odd `Q[0]` there is exactly one word `v` with `lo64(Q[0] * v) = 2^64 - 1`, for an even one none (R128). -/
def Obligations.QInv0IsUnique : Prop :=
  ∀ q0 : Word,
    (q0.toNat % 2 = 1 → ∃ v, mulLo q0 v = BitVec.ofNat 64 (2 ^ 64 - 1) ∧
      ∀ v', mulLo q0 v' = BitVec.ofNat 64 (2 ^ 64 - 1) → v' = v) ∧
    (q0.toNat % 2 = 0 → ∀ v, mulLo q0 v ≠ BitVec.ofNat 64 (2 ^ 64 - 1))

/-- Six rounds of the iteration give `qInv0` for every odd `Q[0]`, "and five rounds are not enough" (R131). -/
def Obligations.SixRoundsGiveQInv0 : Prop :=
  (∀ q0 : Word, q0.toNat % 2 = 1 → mulLo q0 (qInv0Of q0) = BitVec.ofNat 64 (2 ^ 64 - 1)) ∧
  ∃ q0 : Word, q0.toNat % 2 = 1 ∧
    mulLo q0 (0 - Nat.repeat (inverseRound q0) 5 1) ≠ BitVec.ofNat 64 (2 ^ 64 - 1)

/-! ## A whole `MUL` -/

/-- Every accepted, not ignored `MUL` that no reset abandons (R232) completes after exactly `3W + 1` sequencer steps, whatever
the operand and parameter values (R146) and whatever the host presents meanwhile: then `E[zd]` holds `MontMul(E[xs], E[ys], Q,
QINV0)` (R158) and the block is idle; until then it is busy and `E`, `Q`, `QINV0` and `MODE` are as they were at acceptance. If
the host has nothing more to present, or its next command is one that is held (R91), these are the next `3W + 1` steps, and the
command is still presented after them. -/
def Obligations.MulCompletesAfterAllItsSteps : Prop :=
  ∀ (s : State) (zd xs ys : Index) (x y : Limbs),
    s.Inv → letsMulFinish (3 * s.cfg.w + 1) s.host = true → s.busy = false → s.mode = .run →
    zd.toNat < s.cfg.ne → xs.toNat < s.cfg.ne → ys.toNat < s.cfg.ne →
    slotAt s xs = some x → slotAt s ys = some y →
    ∃ (n : Nat) (t u : State), exec (.mul zd xs ys) s = .next t ∧
      (∀ k, k < n → ∃ v : State, Host.Core.run Sys2Proof.core k t = .next v ∧
        v.busy = true ∧ v.e = s.e ∧ v.q = s.q ∧ v.qinv0 = s.qinv0 ∧ v.mode = .run) ∧
      Host.Core.run Sys2Proof.core n t = .next u ∧ sequencerSteps n t = 3 * s.cfg.w + 1 ∧
      u.busy = false ∧ u.ph = .idle ∧
      u.e = s.e.set zd.toNat (montMul x y s.q s.qinv0) ∧
      u.q = s.q ∧ u.qinv0 = s.qinv0 ∧ u.mode = .run ∧
      (s.host = [] ∨ (∃ c rest, s.host = .command c :: rest ∧ acceptedWhileBusy c.cmd = false) →
        n = 3 * s.cfg.w + 1 ∧ u.host = s.host)

/-- The guarantee (R46): if `ParamsInDomain` holds and the first source is below `val(Q)` when the `MUL` is accepted, then when
it completes `val(E[zd]) = (val(x) * val(y) * R⁻¹) mod val(Q)`, with `R⁻¹` the inverse of `R` modulo `val(Q)`; in particular it
is below `val(Q)`. The second source may be any `W`-limb value. The host may present anything meanwhile but a reset, which would
abandon the `MUL` (R232). -/
def Obligations.MulComputesTheMontgomeryProduct : Prop :=
  ∀ (s : State) (zd xs ys : Index) (x y : Limbs),
    s.Inv → letsMulFinish (3 * s.cfg.w + 1) s.host = true → s.busy = false → s.mode = .run →
    zd.toNat < s.cfg.ne → xs.toNat < s.cfg.ne → ys.toNat < s.cfg.ne →
    slotAt s xs = some x → slotAt s ys = some y →
    ParamsInDomain s.cfg.w s.q s.qinv0 → val x < val s.q →
    ∃ (n : Nat) (t u : State) (z : Limbs), exec (.mul zd xs ys) s = .next t ∧
      busyThroughout n t ∧ Host.Core.run Sys2Proof.core n t = .next u ∧ u.busy = false ∧
      slotAt u zd = some z ∧ val z < val s.q ∧
      (∃ rinv, radix s.cfg.w * rinv % val s.q = 1 % val s.q) ∧
      (∀ rinv, radix s.cfg.w * rinv % val s.q = 1 % val s.q → val z = val x * val y * rinv % val s.q)

/-- Aliasing (R77): the three slot indices "may coincide in any way", and the result is the same as with any other, for instance
a distinct, destination, whatever the host presents meanwhile but a reset. -/
def Obligations.AliasedMulGivesTheSameResult : Prop :=
  ∀ (s : State) (zd zd' xs ys : Index),
    s.Inv → letsMulFinish (3 * s.cfg.w + 1) s.host = true → s.busy = false → s.mode = .run →
    zd.toNat < s.cfg.ne → zd'.toNat < s.cfg.ne → xs.toNat < s.cfg.ne → ys.toNat < s.cfg.ne →
    ∃ (n : Nat) (t u t' u' : State) (z : Limbs),
      exec (.mul zd xs ys) s = .next t ∧
      busyThroughout n t ∧ Host.Core.run Sys2Proof.core n t = .next u ∧ u.busy = false ∧
      exec (.mul zd' xs ys) s = .next t' ∧
      busyThroughout n t' ∧ Host.Core.run Sys2Proof.core n t' = .next u' ∧ u'.busy = false ∧
      slotAt u zd = some z ∧ slotAt u' zd' = some z

/-! ## Whole-machine rules -/

/-- Which instruction writes which state: the "written by" column of R30, reset apart. Parameters, host inputs and the data word
on the port are written by none. -/
def Obligations.OnlyTheListedWritersWrite : Prop :=
  ∀ (i : Instr) (s t : State), exec i s = .next t →
    t.cfg = s.cfg ∧ t.host = s.host ∧ t.wdata = s.wdata ∧
    (t.e ≠ s.e → (∃ idx k, i = .wrl idx k) ∨ i = .fred) ∧
    (t.q ≠ s.q → s.mode = .setup ∧ ∃ k, i = .wrq k) ∧
    (t.qinv0 ≠ s.qinv0 → s.mode = .setup ∧ i = .wrqi) ∧
    (t.mode ≠ s.mode → i = .commit ∧ t.mode = .run) ∧
    (t.busy ≠ s.busy → (∃ zd xs ys, i = .mul zd xs ys) ∨ i = .fred) ∧
    (t.zd ≠ s.zd ∨ t.xs ≠ s.xs ∨ t.ys ≠ s.ys → ∃ zd xs ys, i = .mul zd xs ys) ∧
    (t.ph ≠ s.ph → (∃ zd xs ys, i = .mul zd xs ys) ∨ i = .mac ∨ i = .quot ∨ i = .red ∨ i = .fred) ∧
    (t.i ≠ s.i → (∃ zd xs ys, i = .mul zd xs ys) ∨ i = .red) ∧
    (t.t ≠ s.t → (∃ zd xs ys, i = .mul zd xs ys) ∨ i = .mac ∨ i = .red) ∧
    (t.a ≠ s.a → i = .mac) ∧ (t.c ≠ s.c → i = .red) ∧ (t.m ≠ s.m → i = .quot)

/-- Immutability (R129): from RUN mode on, "until the next reset", that is through any number of steps none of which is a reset,
`Q`, `QINV0` and `MODE` do not change; and in no run from reset does `BUSY = 1` coincide with `MODE = SETUP`. -/
def Obligations.ParametersAreImmutableInRun : Prop :=
  (∀ (n : Nat) (s t : State), s.mode = .run →
    (∀ k, k < n → ∀ v, Host.Core.run Sys2Proof.core k s = .next v → ∀ p r, v.host ≠ .reset p :: r) →
    Host.Core.run Sys2Proof.core n s = .next t → t.q = s.q ∧ t.qinv0 = s.qinv0 ∧ t.mode = .run) ∧
  (∀ (n : Nat) (cfg : Config) (inputs : List HostInput) (t : State), cfg.Legal →
    Host.Core.run Sys2Proof.core n { State.resetWith cfg with host := inputs } = .next t →
    t.busy = true → t.mode = .run)

/-- "No read has a side effect", a read may be repeated with the same result, and "every write is idempotent" (R65). -/
def Obligations.ReadsAndWritesMayBeRepeated : Prop :=
  ∀ (i : Instr) (s t : State), exec i s = .next t →
    ((∃ idx k, i = .rdl idx k) ∨ (∃ k, i = .rdq k) ∨ i = .rdqi ∨ i = .rdst →
      t = { s with rspValid := t.rspValid, rdata := t.rdata } ∧ exec i t = .next t) ∧
    ((∃ idx k, i = .wrl idx k) ∨ (∃ k, i = .wrq k) ∨ i = .wrqi → exec i t = .next t)

/-- Read after write, command by command (R68): what `WRL`, `WRQ` and `WRQI` wrote is what `RDL`, `RDQ` and `RDQI` return. -/
def Obligations.ReadReturnsTheLatestWrite : Prop :=
  ∀ (s : State) (idx k : Index), s.Inv → s.busy = false →
    (idx.toNat < s.cfg.ne → k.toNat < s.cfg.w →
      ∃ t, exec (.wrl idx k) s = .next t ∧ exec (.rdl idx k) t = .next { t with rdata := s.wdata }) ∧
    (s.mode = .setup → k.toNat < s.cfg.w →
      ∃ t, exec (.wrq k) s = .next t ∧ exec (.rdq k) t = .next { t with rdata := s.wdata }) ∧
    (s.mode = .setup →
      ∃ t, exec .wrqi s = .next t ∧ exec .rdqi t = .next { t with rdata := s.wdata })

/-- A command that does not use `wdata` behaves the same whatever `wdata` holds, and an accepted command whose "returns `rdata`"
column is 0 returns 0 (R96). -/
def Obligations.UnusedDataWordHasNoInfluence : Prop :=
  (∀ (i : Instr) (s t : State) (v : Word),
    (∀ idx k, i ≠ .wrl idx k) → (∀ k, i ≠ .wrq k) → i ≠ .wrqi →
    exec i s = .next t → exec i { s with wdata := v } = .next { t with wdata := v }) ∧
  (∀ (i : Instr) (s t : State),
    i = .nop ∨ (∃ idx k, i = .wrl idx k) ∨ (∃ k, i = .wrq k) ∨ i = .wrqi ∨ i = .commit ∨
      (∃ zd xs ys, i = .mul zd xs ys) →
    s.busy = false ∨ i = .nop → exec i s = .next t → t.rspValid = true ∧ t.rdata = 0)

/-- A step shows a response exactly if it accepted a command (R41), the `RDST` of a waiting host (R94) included; that the
response is shown for one step is the model's choice (log entry 8). -/
def Obligations.ResponseFollowsAcceptance : Prop :=
  ∀ s t : State, step s = .next t →
    (t.rspValid = true ↔
      (∃ c rest, s.host = .command c :: rest ∧ cmdReady s c.cmd = true) ∨ ∃ gap rest, s.host = .wait gap 0 :: rest)

/-- The invariant holds right after reset, for `State.reset` and for every legal choice of parameters. -/
def Obligations.ResetStateMeetsTheInvariant : Prop :=
  State.reset.Inv ∧ ∀ cfg : Config, cfg.Legal → (State.resetWith cfg).Inv

/-- Every step keeps the invariant: the stores keep their shape, "`BUSY = 1` if and only if `PH != IDLE`" (R35), `0 <= I <= W-1`
(R37), a busy block is in RUN mode (R129) with its latched slots in range, and the parameters stay legal. -/
def Obligations.StepKeepsTheInvariant : Prop :=
  ∀ s t : State, s.Inv → step s = .next t → t.Inv ∧ t.cfg = s.cfg

/-- The block never stops: from every state that meets the invariant, whatever the host does, the step gives a next state. It is
the model's form of "the block raises no synchronous exception, for any command, in any state, with any data" (R200). -/
def Obligations.NoStepFaultsOrRefuses : Prop :=
  ∀ s : State, s.Inv → ∃ t, step s = .next t

/-- Every `MUL` completes and every host program of finite length ends (R146, R246), its `WAIT`s included (R94): a run from any
state that meets the invariant is final after at most the steps that `inputSteps` gives each input, and `3W + 2` for what is in
progress. -/
def Obligations.EveryHostProgramEnds : Prop :=
  ∀ s : State, s.Inv →
    ∃ t : State,
      Host.Core.run Sys2Proof.core ((s.host.map (inputSteps s.cfg.w)).sum + (3 * s.cfg.w + 2)) s = .next t ∧ t.Final

/-- What the spec leaves unspecified has no influence (R38, R47, R52): two states that differ only there and in hidden scratch
take steps that differ only there, and a step that reads written storage only gives the same response in both. So the values
the model names for storage after reset decide nothing in a run that reads only what it wrote. -/
def Obligations.UnwrittenStorageHasNoInfluence : Prop :=
  ∀ s s' t : State, s.Inv → s'.Inv → SameWritten s s' → step s = .next t →
    ∃ t', step s' = .next t' ∧ SameWritten t t' ∧ t.rspValid = t'.rspValid ∧
      (stepReadsWritten s → t.rspValid = true → t.rdata = t'.rdata)

/-! ## Host programs -/

/-- The setup sequence `SETQ #n, #v` (R94, R125): from SETUP mode its `W + 2` commands leave `val(Q) = n`, `QINV0 = v` and `MODE =
RUN`, with the element file untouched. -/
def Obligations.SetqLoadsTheParameters : Prop :=
  ∀ (s : State) (n : Nat) (v : Word),
    s.Inv → s.mode = .setup → n < radix s.cfg.w → s.host = programInputs s.cfg.w [.setq n v] →
    ∃ t : State, Host.Core.run Sys2Proof.core (s.cfg.w + 2) s = .next t ∧
      t.host = [] ∧ t.busy = false ∧ val t.q = n ∧ t.qinv0 = v ∧ t.mode = .run ∧ t.e = s.e

/-- "An element is moved as `W` limb commands" (R112): `WRE e<s>, #n` stores `limbs_W(n)` in the slot and changes no other, and
the responses of `RDE e<s>`, limb 0 first, are the slot's limbs. -/
def Obligations.ElementMovesAsLimbCommands : Prop :=
  (∀ (s : State) (idx : Index) (n : Nat),
    s.Inv → s.busy = false → idx.toNat < s.cfg.ne → n < radix s.cfg.w →
    s.host = programInputs s.cfg.w [.wre idx n] →
    ∃ t : State, Host.Core.run Sys2Proof.core s.cfg.w s = .next t ∧ t.host = [] ∧
      t.e = s.e.set idx.toNat (limbsOf s.cfg.w n)) ∧
  (∀ (s : State) (idx : Index),
    s.Inv → s.busy = false → idx.toNat < s.cfg.ne → s.host = programInputs s.cfg.w [.rde idx] →
    ∃ responses : Limbs, responses.length = s.cfg.w ∧
      (∀ k, k < s.cfg.w → ∃ t : State, Host.Core.run Sys2Proof.core (k + 1) s = .next t ∧
        t.rspValid = true ∧ responses[k]? = some t.rdata) ∧
      slotAt s idx = some responses ∧ fetchedValue responses = val ((slotAt s idx).getD []))

/-- `WAIT` is "repeat `RDST -> r` until `r[0] = 0`" (R94). A poll is an `RDST`, after which the host polls again exactly if the
block was busy; and "it ends because every `MUL` completes": after at most one poll in `gap + 2` steps for each of the `3W + 1`
steps of a `MUL`, and one more poll, the last response has bit 0 = 0, every response before it had bit 0 = 1, the block is not
busy, and the host goes on with what follows. The steps between two polls are the model's own choice (log entry 15). -/
def Obligations.WaitPollsUntilNotBusy : Prop :=
  (∀ (s : State) (gap : Nat) (rest : List HostInput), s.host = .wait gap 0 :: rest →
    step s = exec .rdst { s with
      host := if s.busy then .wait gap (gap + 1) :: rest else rest, wdata := 0, rspValid := false }) ∧
  (∀ (s : State) (gap : Nat) (rest : List HostInput), s.Inv → s.host = .wait gap 0 :: rest →
    ∃ (n : Nat) (t : State), 1 ≤ n ∧ n ≤ (gap + 2) * (3 * s.cfg.w + 1) + 1 ∧
      Host.Core.run Sys2Proof.core n s = .next t ∧
      t.host = rest ∧ t.busy = false ∧ t.rspValid = true ∧ t.rdata.getLsbD 0 = false ∧
      ∀ k, 1 ≤ k → k < n → ∃ v : State, Host.Core.run Sys2Proof.core k s = .next v ∧
        (∃ left, v.host = .wait gap left :: rest) ∧ (v.rspValid = true → v.rdata.getLsbD 0 = true))
end

