-- ==== Sys2Proof/Laws/Limbs.lean ====
section
/-! SUPPORT. The small lemmas of the limb primitives and of the passes: how a sum splits into its low and high word, how long each
result is, and what `val` does to a list's constructors. -/

namespace Sys2Proof.Machine

theorem lo64_toNat (v : Nat) : (lo64 v).toNat = v % limbBase := by
  simp [lo64, limbBase]

theorem hi64_toNat (v : Nat) (h : v < 2 ^ 128) : (hi64 v).toNat = v / limbBase := by
  simp only [hi64, limbBase, BitVec.toNat_ofNat]
  omega

/-- A number below `2^128` is its two words (R18). -/
theorem lo64_add_hi64 (v : Nat) (h : v < 2 ^ 128) :
    (lo64 v).toNat + limbBase * (hi64 v).toNat = v := by
  rw [lo64_toNat, hi64_toNat v h]
  exact Nat.mod_add_div v limbBase

/-- "`v` never exceeds 128 bits because `(D-1) + (D-1)*(D-1) + (D-1) = D*D - 1`" (R151). -/
theorem mulAdd_lt (t x k carry : Word) : t.toNat + x.toNat * k.toNat + carry.toNat < 2 ^ 128 := by
  have ht := t.isLt
  have hc := carry.isLt
  have hm : x.toNat * k.toNat ≤ (2 ^ 64 - 1) * (2 ^ 64 - 1) :=
    Nat.mul_le_mul (Nat.le_sub_one_of_lt x.isLt) (Nat.le_sub_one_of_lt k.isLt)
  omega

@[simp] theorem val_nil : val [] = 0 := rfl

@[simp] theorem val_cons (d : Word) (ds : Limbs) : val (d :: ds) = d.toNat + limbBase * val ds := rfl

@[simp] theorem limbsOf_length (w n : Nat) : (limbsOf w n).length = w := by
  induction w generalizing n with
  | zero => rfl
  | succ w ih => simp [limbsOf, ih]

@[simp] theorem mulAddChain_length (t x : Limbs) (k carry : Word) :
    (mulAddChain t x k carry).1.length = min t.length x.length := by
  induction t generalizing x carry with
  | nil => simp [mulAddChain]
  | cons _ _ ih => cases x with
    | nil => simp [mulAddChain]
    | cons _ _ => simp [mulAddChain, ih]

@[simp] theorem macFn_length (t x : Limbs) (yi : Word) :
    (macFn t x yi).1.length = min t.length x.length := mulAddChain_length t x yi 0

theorem redFn_length (t q : Limbs) (m a : Word) (ht : t ≠ []) (hq : q ≠ []) :
    (redFn t m q a).1.length = min t.length q.length := by
  cases t with
  | nil => exact absurd rfl ht
  | cons _ _ => cases q with
    | nil => exact absurd rfl hq
    | cons _ _ => simp [redFn]

@[simp] theorem subChain_length (t q : Limbs) (b : Bool) :
    (subChain t q b).1.length = min t.length q.length := by
  induction t generalizing q b with
  | nil => simp [subChain]
  | cons _ _ ih => cases q with
    | nil => simp [subChain]
    | cons _ _ => simp [subChain, ih]

theorem fred_length (t q : Limbs) (h : t.length = q.length) : (fred t q).length = t.length := by
  unfold fred
  dsimp only
  split
  · rfl
  · simp [h]

end Sys2Proof.Machine
end

