-- ==== Sys2Proof/Laws/State.lean ====
section
/-! SUPPORT. One lemma per field per named update of the state, each true by unfolding, so that no proof unfolds a record update;
and what reset leaves. -/

namespace Sys2Proof.Machine

/-! ## `State.respond` -/

@[simp] theorem State.respond_cfg (s : State) (v : Word) : (s.respond v).cfg = s.cfg := rfl
@[simp] theorem State.respond_e (s : State) (v : Word) : (s.respond v).e = s.e := rfl
@[simp] theorem State.respond_q (s : State) (v : Word) : (s.respond v).q = s.q := rfl
@[simp] theorem State.respond_qinv0 (s : State) (v : Word) : (s.respond v).qinv0 = s.qinv0 := rfl
@[simp] theorem State.respond_mode (s : State) (v : Word) : (s.respond v).mode = s.mode := rfl
@[simp] theorem State.respond_busy (s : State) (v : Word) : (s.respond v).busy = s.busy := rfl
@[simp] theorem State.respond_zd (s : State) (v : Word) : (s.respond v).zd = s.zd := rfl
@[simp] theorem State.respond_xs (s : State) (v : Word) : (s.respond v).xs = s.xs := rfl
@[simp] theorem State.respond_ys (s : State) (v : Word) : (s.respond v).ys = s.ys := rfl
@[simp] theorem State.respond_ph (s : State) (v : Word) : (s.respond v).ph = s.ph := rfl
@[simp] theorem State.respond_i (s : State) (v : Word) : (s.respond v).i = s.i := rfl
@[simp] theorem State.respond_t (s : State) (v : Word) : (s.respond v).t = s.t := rfl
@[simp] theorem State.respond_a (s : State) (v : Word) : (s.respond v).a = s.a := rfl
@[simp] theorem State.respond_c (s : State) (v : Word) : (s.respond v).c = s.c := rfl
@[simp] theorem State.respond_m (s : State) (v : Word) : (s.respond v).m = s.m := rfl
@[simp] theorem State.respond_wdata (s : State) (v : Word) : (s.respond v).wdata = s.wdata := rfl
@[simp] theorem State.respond_rspValid (s : State) (v : Word) : (s.respond v).rspValid = true := rfl
@[simp] theorem State.respond_rdata (s : State) (v : Word) : (s.respond v).rdata = v := rfl
@[simp] theorem State.respond_host (s : State) (v : Word) : (s.respond v).host = s.host := rfl
@[simp] theorem State.respond_eWritten (s : State) (v : Word) : (s.respond v).eWritten = s.eWritten := rfl
@[simp] theorem State.respond_qWritten (s : State) (v : Word) : (s.respond v).qWritten = s.qWritten := rfl
@[simp] theorem State.respond_qinv0Written (s : State) (v : Word) : (s.respond v).qinv0Written = s.qinv0Written := rfl

/-! ## `State.start` -/

@[simp] theorem State.start_cfg (s : State) (zd xs ys : Index) : (s.start zd xs ys).cfg = s.cfg := rfl
@[simp] theorem State.start_e (s : State) (zd xs ys : Index) : (s.start zd xs ys).e = s.e := rfl
@[simp] theorem State.start_q (s : State) (zd xs ys : Index) : (s.start zd xs ys).q = s.q := rfl
@[simp] theorem State.start_qinv0 (s : State) (zd xs ys : Index) : (s.start zd xs ys).qinv0 = s.qinv0 := rfl
@[simp] theorem State.start_mode (s : State) (zd xs ys : Index) : (s.start zd xs ys).mode = s.mode := rfl
@[simp] theorem State.start_busy (s : State) (zd xs ys : Index) : (s.start zd xs ys).busy = true := rfl
@[simp] theorem State.start_zd (s : State) (zd xs ys : Index) : (s.start zd xs ys).zd = zd := rfl
@[simp] theorem State.start_xs (s : State) (zd xs ys : Index) : (s.start zd xs ys).xs = xs := rfl
@[simp] theorem State.start_ys (s : State) (zd xs ys : Index) : (s.start zd xs ys).ys = ys := rfl
@[simp] theorem State.start_ph (s : State) (zd xs ys : Index) : (s.start zd xs ys).ph = .multiply := rfl
@[simp] theorem State.start_i (s : State) (zd xs ys : Index) : (s.start zd xs ys).i = 0 := rfl
@[simp] theorem State.start_t (s : State) (zd xs ys : Index) : (s.start zd xs ys).t = List.replicate s.cfg.w 0 := rfl
@[simp] theorem State.start_a (s : State) (zd xs ys : Index) : (s.start zd xs ys).a = s.a := rfl
@[simp] theorem State.start_c (s : State) (zd xs ys : Index) : (s.start zd xs ys).c = s.c := rfl
@[simp] theorem State.start_m (s : State) (zd xs ys : Index) : (s.start zd xs ys).m = s.m := rfl
@[simp] theorem State.start_wdata (s : State) (zd xs ys : Index) : (s.start zd xs ys).wdata = s.wdata := rfl
@[simp] theorem State.start_rspValid (s : State) (zd xs ys : Index) : (s.start zd xs ys).rspValid = s.rspValid := rfl
@[simp] theorem State.start_rdata (s : State) (zd xs ys : Index) : (s.start zd xs ys).rdata = s.rdata := rfl
@[simp] theorem State.start_host (s : State) (zd xs ys : Index) : (s.start zd xs ys).host = s.host := rfl
@[simp] theorem State.start_eWritten (s : State) (zd xs ys : Index) : (s.start zd xs ys).eWritten = s.eWritten := rfl
@[simp] theorem State.start_qWritten (s : State) (zd xs ys : Index) : (s.start zd xs ys).qWritten = s.qWritten := rfl
@[simp] theorem State.start_qinv0Written (s : State) (zd xs ys : Index) : (s.start zd xs ys).qinv0Written = s.qinv0Written := rfl

/-! ## `State.quiet` -/

@[simp] theorem State.quiet_cfg (s : State) : (s.quiet).cfg = s.cfg := rfl
@[simp] theorem State.quiet_e (s : State) : (s.quiet).e = s.e := rfl
@[simp] theorem State.quiet_q (s : State) : (s.quiet).q = s.q := rfl
@[simp] theorem State.quiet_qinv0 (s : State) : (s.quiet).qinv0 = s.qinv0 := rfl
@[simp] theorem State.quiet_mode (s : State) : (s.quiet).mode = s.mode := rfl
@[simp] theorem State.quiet_busy (s : State) : (s.quiet).busy = s.busy := rfl
@[simp] theorem State.quiet_zd (s : State) : (s.quiet).zd = s.zd := rfl
@[simp] theorem State.quiet_xs (s : State) : (s.quiet).xs = s.xs := rfl
@[simp] theorem State.quiet_ys (s : State) : (s.quiet).ys = s.ys := rfl
@[simp] theorem State.quiet_ph (s : State) : (s.quiet).ph = s.ph := rfl
@[simp] theorem State.quiet_i (s : State) : (s.quiet).i = s.i := rfl
@[simp] theorem State.quiet_t (s : State) : (s.quiet).t = s.t := rfl
@[simp] theorem State.quiet_a (s : State) : (s.quiet).a = s.a := rfl
@[simp] theorem State.quiet_c (s : State) : (s.quiet).c = s.c := rfl
@[simp] theorem State.quiet_m (s : State) : (s.quiet).m = s.m := rfl
@[simp] theorem State.quiet_wdata (s : State) : (s.quiet).wdata = s.wdata := rfl
@[simp] theorem State.quiet_rspValid (s : State) : (s.quiet).rspValid = false := rfl
@[simp] theorem State.quiet_rdata (s : State) : (s.quiet).rdata = s.rdata := rfl
@[simp] theorem State.quiet_host (s : State) : (s.quiet).host = s.host := rfl
@[simp] theorem State.quiet_eWritten (s : State) : (s.quiet).eWritten = s.eWritten := rfl
@[simp] theorem State.quiet_qWritten (s : State) : (s.quiet).qWritten = s.qWritten := rfl
@[simp] theorem State.quiet_qinv0Written (s : State) : (s.quiet).qinv0Written = s.qinv0Written := rfl

/-! ## `State.consume` -/

@[simp] theorem State.consume_cfg (s : State) (rest : List HostInput) : (s.consume rest).cfg = s.cfg := rfl
@[simp] theorem State.consume_e (s : State) (rest : List HostInput) : (s.consume rest).e = s.e := rfl
@[simp] theorem State.consume_q (s : State) (rest : List HostInput) : (s.consume rest).q = s.q := rfl
@[simp] theorem State.consume_qinv0 (s : State) (rest : List HostInput) : (s.consume rest).qinv0 = s.qinv0 := rfl
@[simp] theorem State.consume_mode (s : State) (rest : List HostInput) : (s.consume rest).mode = s.mode := rfl
@[simp] theorem State.consume_busy (s : State) (rest : List HostInput) : (s.consume rest).busy = s.busy := rfl
@[simp] theorem State.consume_zd (s : State) (rest : List HostInput) : (s.consume rest).zd = s.zd := rfl
@[simp] theorem State.consume_xs (s : State) (rest : List HostInput) : (s.consume rest).xs = s.xs := rfl
@[simp] theorem State.consume_ys (s : State) (rest : List HostInput) : (s.consume rest).ys = s.ys := rfl
@[simp] theorem State.consume_ph (s : State) (rest : List HostInput) : (s.consume rest).ph = s.ph := rfl
@[simp] theorem State.consume_i (s : State) (rest : List HostInput) : (s.consume rest).i = s.i := rfl
@[simp] theorem State.consume_t (s : State) (rest : List HostInput) : (s.consume rest).t = s.t := rfl
@[simp] theorem State.consume_a (s : State) (rest : List HostInput) : (s.consume rest).a = s.a := rfl
@[simp] theorem State.consume_c (s : State) (rest : List HostInput) : (s.consume rest).c = s.c := rfl
@[simp] theorem State.consume_m (s : State) (rest : List HostInput) : (s.consume rest).m = s.m := rfl
@[simp] theorem State.consume_wdata (s : State) (rest : List HostInput) : (s.consume rest).wdata = s.wdata := rfl
@[simp] theorem State.consume_rspValid (s : State) (rest : List HostInput) : (s.consume rest).rspValid = s.rspValid := rfl
@[simp] theorem State.consume_rdata (s : State) (rest : List HostInput) : (s.consume rest).rdata = s.rdata := rfl
@[simp] theorem State.consume_host (s : State) (rest : List HostInput) : (s.consume rest).host = rest := rfl
@[simp] theorem State.consume_eWritten (s : State) (rest : List HostInput) : (s.consume rest).eWritten = s.eWritten := rfl
@[simp] theorem State.consume_qWritten (s : State) (rest : List HostInput) : (s.consume rest).qWritten = s.qWritten := rfl
@[simp] theorem State.consume_qinv0Written (s : State) (rest : List HostInput) : (s.consume rest).qinv0Written = s.qinv0Written := rfl

/-! ## `State.accept` -/

@[simp] theorem State.accept_cfg (s : State) (cmd : Command) (rest : List HostInput) : (s.accept cmd rest).cfg = s.cfg := rfl
@[simp] theorem State.accept_e (s : State) (cmd : Command) (rest : List HostInput) : (s.accept cmd rest).e = s.e := rfl
@[simp] theorem State.accept_q (s : State) (cmd : Command) (rest : List HostInput) : (s.accept cmd rest).q = s.q := rfl
@[simp] theorem State.accept_qinv0 (s : State) (cmd : Command) (rest : List HostInput) : (s.accept cmd rest).qinv0 = s.qinv0 := rfl
@[simp] theorem State.accept_mode (s : State) (cmd : Command) (rest : List HostInput) : (s.accept cmd rest).mode = s.mode := rfl
@[simp] theorem State.accept_busy (s : State) (cmd : Command) (rest : List HostInput) : (s.accept cmd rest).busy = s.busy := rfl
@[simp] theorem State.accept_zd (s : State) (cmd : Command) (rest : List HostInput) : (s.accept cmd rest).zd = s.zd := rfl
@[simp] theorem State.accept_xs (s : State) (cmd : Command) (rest : List HostInput) : (s.accept cmd rest).xs = s.xs := rfl
@[simp] theorem State.accept_ys (s : State) (cmd : Command) (rest : List HostInput) : (s.accept cmd rest).ys = s.ys := rfl
@[simp] theorem State.accept_ph (s : State) (cmd : Command) (rest : List HostInput) : (s.accept cmd rest).ph = s.ph := rfl
@[simp] theorem State.accept_i (s : State) (cmd : Command) (rest : List HostInput) : (s.accept cmd rest).i = s.i := rfl
@[simp] theorem State.accept_t (s : State) (cmd : Command) (rest : List HostInput) : (s.accept cmd rest).t = s.t := rfl
@[simp] theorem State.accept_a (s : State) (cmd : Command) (rest : List HostInput) : (s.accept cmd rest).a = s.a := rfl
@[simp] theorem State.accept_c (s : State) (cmd : Command) (rest : List HostInput) : (s.accept cmd rest).c = s.c := rfl
@[simp] theorem State.accept_m (s : State) (cmd : Command) (rest : List HostInput) : (s.accept cmd rest).m = s.m := rfl
@[simp] theorem State.accept_wdata (s : State) (cmd : Command) (rest : List HostInput) : (s.accept cmd rest).wdata = cmd.wdata := rfl
@[simp] theorem State.accept_rspValid (s : State) (cmd : Command) (rest : List HostInput) : (s.accept cmd rest).rspValid = s.rspValid := rfl
@[simp] theorem State.accept_rdata (s : State) (cmd : Command) (rest : List HostInput) : (s.accept cmd rest).rdata = s.rdata := rfl
@[simp] theorem State.accept_host (s : State) (cmd : Command) (rest : List HostInput) : (s.accept cmd rest).host = rest := rfl
@[simp] theorem State.accept_eWritten (s : State) (cmd : Command) (rest : List HostInput) : (s.accept cmd rest).eWritten = s.eWritten := rfl
@[simp] theorem State.accept_qWritten (s : State) (cmd : Command) (rest : List HostInput) : (s.accept cmd rest).qWritten = s.qWritten := rfl
@[simp] theorem State.accept_qinv0Written (s : State) (cmd : Command) (rest : List HostInput) : (s.accept cmd rest).qinv0Written = s.qinv0Written := rfl

/-! ## `State.present` -/

@[simp] theorem State.present_cfg (s : State) (cmd : Command) : (s.present cmd).cfg = s.cfg := rfl
@[simp] theorem State.present_e (s : State) (cmd : Command) : (s.present cmd).e = s.e := rfl
@[simp] theorem State.present_q (s : State) (cmd : Command) : (s.present cmd).q = s.q := rfl
@[simp] theorem State.present_qinv0 (s : State) (cmd : Command) : (s.present cmd).qinv0 = s.qinv0 := rfl
@[simp] theorem State.present_mode (s : State) (cmd : Command) : (s.present cmd).mode = s.mode := rfl
@[simp] theorem State.present_busy (s : State) (cmd : Command) : (s.present cmd).busy = s.busy := rfl
@[simp] theorem State.present_zd (s : State) (cmd : Command) : (s.present cmd).zd = s.zd := rfl
@[simp] theorem State.present_xs (s : State) (cmd : Command) : (s.present cmd).xs = s.xs := rfl
@[simp] theorem State.present_ys (s : State) (cmd : Command) : (s.present cmd).ys = s.ys := rfl
@[simp] theorem State.present_ph (s : State) (cmd : Command) : (s.present cmd).ph = s.ph := rfl
@[simp] theorem State.present_i (s : State) (cmd : Command) : (s.present cmd).i = s.i := rfl
@[simp] theorem State.present_t (s : State) (cmd : Command) : (s.present cmd).t = s.t := rfl
@[simp] theorem State.present_a (s : State) (cmd : Command) : (s.present cmd).a = s.a := rfl
@[simp] theorem State.present_c (s : State) (cmd : Command) : (s.present cmd).c = s.c := rfl
@[simp] theorem State.present_m (s : State) (cmd : Command) : (s.present cmd).m = s.m := rfl
@[simp] theorem State.present_wdata (s : State) (cmd : Command) : (s.present cmd).wdata = s.wdata := rfl
@[simp] theorem State.present_rspValid (s : State) (cmd : Command) : (s.present cmd).rspValid = s.rspValid := rfl
@[simp] theorem State.present_rdata (s : State) (cmd : Command) : (s.present cmd).rdata = s.rdata := rfl
@[simp] theorem State.present_host (s : State) (cmd : Command) : (s.present cmd).host = .command cmd :: s.host := rfl
@[simp] theorem State.present_eWritten (s : State) (cmd : Command) : (s.present cmd).eWritten = s.eWritten := rfl
@[simp] theorem State.present_qWritten (s : State) (cmd : Command) : (s.present cmd).qWritten = s.qWritten := rfl
@[simp] theorem State.present_qinv0Written (s : State) (cmd : Command) : (s.present cmd).qinv0Written = s.qinv0Written := rfl

/-! ## Reset: what the spec gives, and the marks -/

@[simp] theorem State.resetWith_cfg (cfg : Config) : (State.resetWith cfg).cfg = cfg := rfl
@[simp] theorem State.resetWith_mode (cfg : Config) : (State.resetWith cfg).mode = .setup := rfl
@[simp] theorem State.resetWith_busy (cfg : Config) : (State.resetWith cfg).busy = false := rfl
@[simp] theorem State.resetWith_ph (cfg : Config) : (State.resetWith cfg).ph = .idle := rfl
@[simp] theorem State.resetWith_rspValid (cfg : Config) : (State.resetWith cfg).rspValid = false := rfl
@[simp] theorem State.resetWith_host (cfg : Config) : (State.resetWith cfg).host = [] := rfl
@[simp] theorem State.resetWith_qinv0Written (cfg : Config) : (State.resetWith cfg).qinv0Written = false := rfl
@[simp] theorem State.resetWith_eWritten (cfg : Config) : (State.resetWith cfg).eWritten = List.replicate cfg.ne (List.replicate cfg.w false) := rfl
@[simp] theorem State.resetWith_qWritten (cfg : Config) : (State.resetWith cfg).qWritten = List.replicate cfg.w false := rfl

theorem State.afterReset_cfg (s : State) (rest : List HostInput) : (s.afterReset rest).cfg = (State.resetWith s.cfg).cfg := rfl
theorem State.afterReset_e (s : State) (rest : List HostInput) : (s.afterReset rest).e = (State.resetWith s.cfg).e := rfl
theorem State.afterReset_q (s : State) (rest : List HostInput) : (s.afterReset rest).q = (State.resetWith s.cfg).q := rfl
theorem State.afterReset_qinv0 (s : State) (rest : List HostInput) : (s.afterReset rest).qinv0 = (State.resetWith s.cfg).qinv0 := rfl
theorem State.afterReset_mode (s : State) (rest : List HostInput) : (s.afterReset rest).mode = (State.resetWith s.cfg).mode := rfl
theorem State.afterReset_busy (s : State) (rest : List HostInput) : (s.afterReset rest).busy = (State.resetWith s.cfg).busy := rfl
theorem State.afterReset_zd (s : State) (rest : List HostInput) : (s.afterReset rest).zd = (State.resetWith s.cfg).zd := rfl
theorem State.afterReset_xs (s : State) (rest : List HostInput) : (s.afterReset rest).xs = (State.resetWith s.cfg).xs := rfl
theorem State.afterReset_ys (s : State) (rest : List HostInput) : (s.afterReset rest).ys = (State.resetWith s.cfg).ys := rfl
theorem State.afterReset_ph (s : State) (rest : List HostInput) : (s.afterReset rest).ph = (State.resetWith s.cfg).ph := rfl
theorem State.afterReset_i (s : State) (rest : List HostInput) : (s.afterReset rest).i = (State.resetWith s.cfg).i := rfl
theorem State.afterReset_t (s : State) (rest : List HostInput) : (s.afterReset rest).t = (State.resetWith s.cfg).t := rfl
theorem State.afterReset_a (s : State) (rest : List HostInput) : (s.afterReset rest).a = (State.resetWith s.cfg).a := rfl
theorem State.afterReset_c (s : State) (rest : List HostInput) : (s.afterReset rest).c = (State.resetWith s.cfg).c := rfl
theorem State.afterReset_m (s : State) (rest : List HostInput) : (s.afterReset rest).m = (State.resetWith s.cfg).m := rfl
theorem State.afterReset_wdata (s : State) (rest : List HostInput) : (s.afterReset rest).wdata = (State.resetWith s.cfg).wdata := rfl
theorem State.afterReset_rspValid (s : State) (rest : List HostInput) : (s.afterReset rest).rspValid = (State.resetWith s.cfg).rspValid := rfl
theorem State.afterReset_rdata (s : State) (rest : List HostInput) : (s.afterReset rest).rdata = (State.resetWith s.cfg).rdata := rfl
theorem State.afterReset_host (s : State) (rest : List HostInput) : (s.afterReset rest).host = rest := rfl
theorem State.afterReset_eWritten (s : State) (rest : List HostInput) : (s.afterReset rest).eWritten = (State.resetWith s.cfg).eWritten := rfl
theorem State.afterReset_qWritten (s : State) (rest : List HostInput) : (s.afterReset rest).qWritten = (State.resetWith s.cfg).qWritten := rfl
theorem State.afterReset_qinv0Written (s : State) (rest : List HostInput) : (s.afterReset rest).qinv0Written = (State.resetWith s.cfg).qinv0Written := rfl

end Sys2Proof.Machine
end

