-- ==== Sys2Proof/Laws/Ops.lean ====
section
/-! SUPPORT. One lemma per shared operation that says once what it can do, and that every operation on storage keeps its shape. -/

namespace Sys2Proof.Machine

/-! ## Acceptance and phase -/

@[simp] theorem whenAccepted_busy (s : State) (f : State → Result) (h : s.busy = true) :
    whenAccepted s f = .next s := by simp [whenAccepted, held, h]

@[simp] theorem whenAccepted_free (s : State) (f : State → Result) (h : s.busy = false) :
    whenAccepted s f = f s := by simp [whenAccepted, h]

/-- A command either is held, with no effect, or has its effect (R91). -/
theorem whenAccepted_cases (s : State) (f : State → Result) :
    (s.busy = true ∧ whenAccepted s f = .next s) ∨ (s.busy = false ∧ whenAccepted s f = f s) := by
  cases h : s.busy with
  | true => exact .inl ⟨rfl, by simp [h]⟩
  | false => exact .inr ⟨rfl, by simp [h]⟩

@[simp] theorem whenPhase_of_eq (p : Phase) (s : State) (f : State → Result) (h : s.ph = p) :
    whenPhase p s f = f s := by simp [whenPhase, h]

@[simp] theorem whenPhase_of_ne (p : Phase) (s : State) (f : State → Result) (h : s.ph ≠ p) :
    whenPhase p s f = .next s := by simp [whenPhase, h]

theorem ignore_eq (s : State) : ignore s = .next { s with rspValid := true, rdata := 0 } := rfl

/-! ## The port -/

/-- Only a reset in front of the host's inputs asserts `rst`. -/
theorem resetAsserted_eq_true (s : State) :
    resetAsserted s = true ↔ ∃ p rest, s.host = .reset p :: rest := by
  unfold resetAsserted; split <;> simp_all

/-- The two words accepted while `BUSY = 1`. -/
theorem acceptedWhileBusy_eq_true (w : CmdWord) :
    acceptedWhileBusy w = true ↔ decode w = .ok .nop ∨ decode w = .ok .rdst := by
  unfold acceptedWhileBusy; split <;> simp_all

/-- When a word is ready: no reset, and the block is free or the word is `NOP` or `RDST` (R91, R230). -/
theorem cmdReady_eq_true (s : State) (w : CmdWord) :
    cmdReady s w = true ↔ resetAsserted s = false ∧ (s.busy = false ∨ acceptedWhileBusy w = true) := by
  simp [cmdReady]

/-- A presented command is no reset. -/
@[simp] theorem resetAsserted_command {s : State} {c : Command} {rest : List HostInput} (h : s.host = .command c :: rest) :
    resetAsserted s = false := by simp [resetAsserted, h]

/-! ## Reading and writing a storage word -/

/-- A limb in range is held by a state of the right shape. -/
theorem State.Shaped.limbAt_isSome {s : State} (h : s.Shaped) {idx k : Nat} (hi : idx < s.cfg.ne) (hk : k < s.cfg.w) :
    ∃ v, limbAt s idx k = some v := by
  obtain ⟨-, hlen, hslot, -⟩ := h
  have hi' : idx < s.e.length := hlen ▸ hi
  have hk' : k < s.e[idx].length := (hslot _ (List.getElem_mem hi')) ▸ hk
  exact ⟨s.e[idx][k], by simp [limbAt, hi', hk']⟩

/-- A slot in range is held by a state of the right shape, with `W` limbs. -/
theorem State.Shaped.slotAt_isSome {s : State} (h : s.Shaped) {idx : Index} (hi : idx.toNat < s.cfg.ne) :
    ∃ x, slotAt s idx = some x ∧ x.length = s.cfg.w := by
  obtain ⟨-, hlen, hslot, -⟩ := h
  have hi' : idx.toNat < s.e.length := hlen ▸ hi
  exact ⟨s.e[idx.toNat], by simp [slotAt, hi'], hslot _ (List.getElem_mem hi')⟩

/-- What a read command can answer: the word at the location as the response, or the model's fault where there is none. -/
theorem loadWord_cases (l : Loc) (s : State) :
    (∃ v, readLoc s l = some v ∧ loadWord l s = .next (s.respond v)) ∨
    (readLoc s l = none ∧ loadWord l s = .fault .absentStorage) := by
  cases h : readLoc s l with
  | some v => exact .inl ⟨v, rfl, by simp [loadWord, h]⟩
  | none => exact .inr ⟨rfl, by simp [loadWord, h]⟩

/-- What a write command can answer. -/
theorem storeWord_cases (l : Loc) (s : State) :
    (∃ t, writeLoc s l s.wdata = some t ∧ storeWord l s = .next (t.respond 0)) ∨
    (writeLoc s l s.wdata = none ∧ storeWord l s = .fault .absentStorage) := by
  cases h : writeLoc s l s.wdata with
  | some t => exact .inl ⟨t, rfl, by simp [storeWord, h]⟩
  | none => exact .inr ⟨rfl, by simp [storeWord, h]⟩

/-- What a write to a limb of `E` does: only `E` and its marks change, by that limb and its mark. -/
theorem writeLoc_e {s t : State} {idx k : Nat} {v : Word} (h : writeLoc s (.e idx k) v = some t) :
    t = { s with
      e := s.e.modify idx (fun x => x.set k v)
      eWritten := s.eWritten.modify idx (fun x => x.set k true) } := by
  cases hl : limbAt s idx k with
  | some _ => simpa [writeLoc, hl] using h.symm
  | none => simp [writeLoc, hl] at h

/-- What a write to a limb of `Q` does. -/
theorem writeLoc_q {s t : State} {k : Nat} {v : Word} (h : writeLoc s (.q k) v = some t) :
    t = { s with q := s.q.set k v, qWritten := s.qWritten.set k true } := by
  cases hl : s.q[k]? with
  | some _ => simpa [writeLoc, hl] using h.symm
  | none => simp [writeLoc, hl] at h

/-- After a write of a limb of `E`, that limb reads as written and every other as before. -/
theorem limbAt_modify (s : State) (marks : List (List Bool)) (idx k : Nat) (v : Word) (h : (limbAt s idx k).isSome)
    (a b : Nat) :
    limbAt { s with e := s.e.modify idx (fun x => x.set k v), eWritten := marks } a b =
      if a = idx ∧ b = k then some v else limbAt s a b := by
  simp only [limbAt, List.getElem?_modify] at h ⊢
  by_cases ha : idx = a
  · subst ha
    cases hx : s.e[idx]? with
    | none => simp [hx] at h
    | some x =>
      simp only [hx, Option.bind_some] at h
      have hk : k < x.length := by
        by_contra hc
        simp [List.getElem?_eq_none (Nat.le_of_not_lt hc)] at h
      by_cases hb : k = b
      · subst hb
        simp [hk]
      · simp [hb, Ne.symm hb]
  · cases hx : s.e[a]? <;> simp [ha, Ne.symm ha]

theorem length_of_mem_modify {α : Type} {w idx : Nat} {l : List (List α)} {f : List α → List α}
    (h : ∀ x ∈ l, x.length = w) (hf : ∀ x, (f x).length = x.length) :
    ∀ x ∈ l.modify idx f, x.length = w := by
  intro x hx
  obtain ⟨j, hj, rfl⟩ := List.mem_iff_getElem.mp hx
  rw [List.length_modify] at hj
  rw [List.getElem_modify]
  split
  · rw [hf]; exact h _ (List.getElem_mem hj)
  · exact h _ (List.getElem_mem hj)

theorem length_of_mem_set {α : Type} {w idx : Nat} {l : List (List α)} {v : List α}
    (h : ∀ x ∈ l, x.length = w) (hv : v.length = w) : ∀ x ∈ l.set idx v, x.length = w := by
  intro x hx
  rcases List.mem_or_eq_of_mem_set hx with hx | rfl
  · exact h _ hx
  · exact hv

/-- A write of a storage word keeps the shape of every store. -/
theorem writeLoc_shaped {s t : State} {l : Loc} {v : Word} (h : writeLoc s l v = some t) (hs : s.Shaped) : t.Shaped := by
  obtain ⟨hc, he, hes, hq, ht, hw, hws, hqw⟩ := hs
  cases l with
  | e idx k =>
    rw [writeLoc_e h]
    exact ⟨hc, by simpa using he, length_of_mem_modify hes (by simp), hq, ht, by simpa using hw,
      length_of_mem_modify hws (by simp), hqw⟩
  | q k =>
    rw [writeLoc_q h]
    exact ⟨hc, he, hes, by simpa using hq, ht, hw, hws, by simpa using hqw⟩
  | qinv0 =>
    simp only [writeLoc, Option.some.injEq] at h
    subst h
    exact ⟨hc, he, hes, hq, ht, hw, hws, hqw⟩
  | status => simp [writeLoc] at h

/-- What a write of a whole slot does, and that it keeps the shape if the slot's new content has `W` limbs. -/
theorem writeSlot_eq {s t : State} {idx : Index} {v : Limbs} {b : Bool} (h : writeSlot s idx v b = some t) :
    t = { s with
      e := s.e.set idx.toNat v
      eWritten := s.eWritten.set idx.toNat (List.replicate s.cfg.w b) } := by
  cases hl : slotAt s idx with
  | some _ => simpa [writeSlot, hl] using h.symm
  | none => simp [writeSlot, hl] at h

theorem writeSlot_shaped {s t : State} {idx : Index} {v : Limbs} {b : Bool} (h : writeSlot s idx v b = some t)
    (hv : v.length = s.cfg.w) (hs : s.Shaped) : t.Shaped := by
  obtain ⟨hc, he, hes, hq, ht, hw, hws, hqw⟩ := hs
  rw [writeSlot_eq h]
  exact ⟨hc, by simpa using he, length_of_mem_set hes hv, hq, ht, by simpa using hw,
    length_of_mem_set hws (by simp), hqw⟩

end Sys2Proof.Machine
end

