-- ==== Sys2Proof/Laws/PerInstr.lean ====
section
/-! SUPPORT. The family `TableRow`, one lemma per constructor: a command's word has the match bits of its row of R83 under the
row's mask, and a micro-operation has neither a row nor a word (R89). -/

namespace Sys2Proof.Laws.TableRow

/-- The instruction's word, if it has one, fits the instruction's row of the opcode map; it has the one exactly if it has the
other. -/
def Statement (i : Instr) : Prop :=
  match encode i, tableRow i with
  | some w, some r => r.fits w = true
  | none, none => True
  | _, _ => False

/-- A packed word under a mask that keeps bits 31:28 and 11:0 (format L). -/
theorem pack_formatL (op : BitVec 4) (s k : Index) :
    pack op s k 0 &&& 0xF0000FFF = op ++ (0 : BitVec 28) := by
  apply BitVec.eq_of_getLsbD_eq
  intro i hi
  simp only [pack, BitVec.getLsbD_and, BitVec.getLsbD_append]
  interval_cases i <;> simp

/-- A packed word under a mask that keeps all but bits 19:12 (format K). -/
theorem pack_formatK (op : BitVec 4) (k : Index) :
    pack op 0 k 0 &&& 0xFFF00FFF = op ++ (0 : BitVec 28) := by
  apply BitVec.eq_of_getLsbD_eq
  intro i hi
  simp only [pack, BitVec.getLsbD_and, BitVec.getLsbD_append]
  interval_cases i <;> simp

/-- A packed word under a mask that keeps bits 31:28 and 3:0 (format M). -/
theorem pack_formatM (op : BitVec 4) (zd xs ys : Index) :
    pack op zd xs ys &&& 0xF000000F = op ++ (0 : BitVec 28) := by
  apply BitVec.eq_of_getLsbD_eq
  intro i hi
  simp only [pack, BitVec.getLsbD_and, BitVec.getLsbD_append]
  interval_cases i <;> simp

theorem nop : Statement .nop := by
  simp only [Statement, encode, tableRow]; decide

theorem wrl (s k : Index) : Statement (.wrl s k) := by
  simp only [Statement, encode, tableRow, TableRow.fits, pack_formatL]; decide

theorem rdl (s k : Index) : Statement (.rdl s k) := by
  simp only [Statement, encode, tableRow, TableRow.fits, pack_formatL]; decide

theorem wrq (k : Index) : Statement (.wrq k) := by
  simp only [Statement, encode, tableRow, TableRow.fits, pack_formatK]; decide

theorem rdq (k : Index) : Statement (.rdq k) := by
  simp only [Statement, encode, tableRow, TableRow.fits, pack_formatK]; decide

theorem wrqi : Statement .wrqi := by
  simp only [Statement, encode, tableRow]; decide

theorem rdqi : Statement .rdqi := by
  simp only [Statement, encode, tableRow]; decide

theorem commit : Statement .commit := by
  simp only [Statement, encode, tableRow]; decide

theorem mul (zd xs ys : Index) : Statement (.mul zd xs ys) := by
  simp only [Statement, encode, tableRow, TableRow.fits, pack_formatM]; decide

theorem rdst : Statement .rdst := by
  simp only [Statement, encode, tableRow]; decide

theorem mac : Statement .mac := trivial

theorem quot : Statement .quot := trivial

theorem red : Statement .red := trivial

theorem fred : Statement .fred := trivial

end Sys2Proof.Laws.TableRow
end

