-- ==== Sys2Proof/Laws/Step.lean ====
section
/-! SUPPORT. What one step can do, said once, by the host's next input. -/

namespace Sys2Proof.Machine

@[simp] theorem runAction_perform (i : Instr) (s : State) : runAction (.perform i s) = exec i s := rfl

@[simp] theorem runAction_settle (s : State) : runAction (.settle s) = .next s := rfl

/-- The sequencer performs a micro-operation exactly if `PH` is not `IDLE` (R145). -/
theorem isSequencerStep_sequencerAction (s : State) :
    (sequencerAction s).isSequencerStep = true ↔ s.ph ≠ .idle := by
  cases h : s.ph <;> simp [sequencerAction, Action.isSequencerStep, Instr.isCommand, h]

theorem step_of_nil {s : State} (h : s.host = []) :
    step s = runAction (sequencerAction s.quiet) := by
  simp only [step, action, h, runAction]

theorem step_of_idle {s : State} {rest : List HostInput} (h : s.host = .idle :: rest) :
    step s = runAction (sequencerAction (s.quiet.consume rest)) := by
  simp only [step, action, h, runAction]

theorem step_of_wait {s : State} {gap left : Nat} {rest : List HostInput} (h : s.host = .wait gap (left + 1) :: rest) :
    step s = runAction (sequencerAction (s.quiet.consume (.wait gap left :: rest))) := by
  simp only [step, action, h, runAction]

theorem decode_pollCommand : decode pollCommand.cmd = .ok .rdst := by decide

theorem step_of_poll {s : State} {gap : Nat} {rest : List HostInput} (h : s.host = .wait gap 0 :: rest) :
    step s = exec .rdst (s.quiet.accept pollCommand (afterPoll (statusWord s) gap rest)) := by
  simp only [step, action, h, acceptedAction, decode_pollCommand, runAction]

/-- `WAIT` goes on exactly while the block is busy. -/
theorem afterPoll_statusWord (s : State) (gap : Nat) (rest : List HostInput) :
    afterPoll (statusWord s) gap rest = if s.busy then .wait gap (gap + 1) :: rest else rest := by
  have h : waitEnds (statusWord s) = !s.busy := by
    cases hb : s.busy <;> cases hm : s.mode <;> simp [waitEnds, statusWord, modeBit, hb, hm]
  cases hb : s.busy <;> simp [afterPoll, h, hb]

theorem step_of_reset {s : State} {p : Option Command} {rest : List HostInput} (h : s.host = .reset p :: rest) :
    step s = .next (s.afterReset rest) := by
  simp only [step, action, h, runAction]

theorem step_of_ready {s : State} {c : Command} {rest : List HostInput} (h : s.host = .command c :: rest)
    (hr : cmdReady s c.cmd = true) :
    step s = (match decode c.cmd with
      | .ok i => exec i (s.quiet.accept c rest)
      | .error _ => .next ((s.quiet.accept c rest).respond 0)) := by
  simp only [step, action, h, hr, if_true, acceptedAction]
  cases decode c.cmd <;> rfl

theorem step_of_held {s : State} {c : Command} {rest : List HostInput} (h : s.host = .command c :: rest)
    (hr : cmdReady s c.cmd = false) :
    step s = runAction (sequencerAction s.quiet) := by
  simp only [step, action, h, hr, Bool.false_eq_true, if_false]

/-- What one step can do: a reset; an accepted command, performed or ignored; a poll of a waiting host; or, with nothing accepted,
the sequencer's move from a state that differs from `s` in the port and the inputs at most. -/
theorem step_cases (s : State) :
    (∃ p rest, s.host = .reset p :: rest ∧ step s = .next (s.afterReset rest)) ∨
    (∃ c rest i, s.host = .command c :: rest ∧ cmdReady s c.cmd = true ∧ decode c.cmd = .ok i ∧
      step s = exec i (s.quiet.accept c rest)) ∨
    (∃ c rest e, s.host = .command c :: rest ∧ cmdReady s c.cmd = true ∧ decode c.cmd = .error e ∧
      step s = .next ((s.quiet.accept c rest).respond 0)) ∨
    (∃ gap rest, s.host = .wait gap 0 :: rest ∧
      step s = exec .rdst (s.quiet.accept pollCommand (afterPoll (statusWord s) gap rest))) ∨
    (∃ rest, (s.host = rest ∨ s.host = .idle :: rest ∨
        ∃ gap left rest', s.host = .wait gap (left + 1) :: rest' ∧ rest = .wait gap left :: rest') ∧
      step s = runAction (sequencerAction (s.quiet.consume rest))) := by
  have hq : ∀ l, s.host = l → s.quiet.consume l = s.quiet := by rintro _ rfl; rfl
  match h : s.host with
  | [] => exact .inr (.inr (.inr (.inr ⟨[], .inl rfl, by rw [step_of_nil h, hq [] h]⟩)))
  | .idle :: rest => exact .inr (.inr (.inr (.inr ⟨rest, .inr (.inl rfl), step_of_idle h⟩)))
  | .wait gap (left + 1) :: rest =>
    exact .inr (.inr (.inr (.inr ⟨_, .inr (.inr ⟨gap, left, rest, rfl, rfl⟩), step_of_wait h⟩)))
  | .wait gap 0 :: rest => exact .inr (.inr (.inr (.inl ⟨gap, rest, rfl, step_of_poll h⟩)))
  | .reset p :: rest => exact .inl ⟨p, rest, rfl, step_of_reset h⟩
  | .command c :: rest =>
    cases hr : cmdReady s c.cmd with
    | false => exact .inr (.inr (.inr (.inr ⟨.command c :: rest, .inl rfl, by rw [step_of_held h hr, hq _ h]⟩)))
    | true =>
      cases hd : decode c.cmd with
      | ok i => exact .inr (.inl ⟨c, rest, i, rfl, hr, hd, by rw [step_of_ready h hr, hd]⟩)
      | error e => exact .inr (.inr (.inl ⟨c, rest, e, rfl, hr, hd, by rw [step_of_ready h hr, hd]⟩))

end Sys2Proof.Machine
end

