-- ==== Sys2Proof/Tests/Slice0.lean ====
section
/-! SUPPORT. The model's own tests: ill-formed terms, words written out from the encoding, one or two steps per instruction with the
numbers of spec/95, and for every statement with hypotheses a state that meets them, clause by clause. -/

namespace Sys2Proof.Tests

open Sys2Proof Sys2Proof.Machine

/-! ## Helpers -/

/-- The next state, if that is the outcome. -/
def nextOf (r : Result) : Option State :=
  match r with
  | .next s => some s
  | .fault _ => none
  | .refused _ => none

/-- A block with `W = 1`, `NE = 4` in RUN mode with the field F97 of spec/95 section 2 and four written slots. -/
def f97 : State :=
  { State.resetWith ⟨1, 4⟩ with
    mode := .run
    q := [0x61]
    qinv0 := 0x5C5F02A3A0FD5C5F
    e := [[0x56], [0x0E], [0x05], [0x07]]
    eWritten := [[true], [true], [true], [true]]
    qWritten := [true]
    qinv0Written := true }

/-- The same block in SETUP mode. -/
def f97Setup : State := { f97 with mode := .setup }

/-- The same block with a `MUL e2, e0, e1` in progress, in a given phase. -/
def f97Busy (p : Phase) : State := { f97 with busy := true, ph := p, zd := 2, xs := 0, ys := 1 }

/-- A block with `W = 2`, `NE = 4` (spec/95 section 6.2). -/
def wide : State := State.resetWith ⟨2, 4⟩

/-- A block with `W = 2` with a `MUL` in progress and given accumulator, first source and modulus. -/
def wideBusy (p : Phase) (t x q : Limbs) (yi : Word) : State :=
  { wide with
    mode := .run, busy := true, ph := p, zd := 2, xs := 0, ys := 1, t := t, q := q
    e := [x, [yi, 0], [0, 0], [0, 0]] }

/-! ## Well-formedness -/

theorem test_mac_is_no_command : ¬ Instr.mac.WellFormed := by decide
theorem test_quot_is_no_command : ¬ Instr.quot.WellFormed := by decide
theorem test_red_is_no_command : ¬ Instr.red.WellFormed := by decide
theorem test_fred_is_no_command : ¬ Instr.fred.WellFormed := by decide
theorem test_mul_is_a_command : (Instr.mul 255 255 255).WellFormed := by decide

/-! ## Decoding: words written out bit by bit from R82 and R83 -/

theorem test_decode_nop : decode 0b0000_00000000_00000000_00000000_0000 = .ok .nop := by decide
theorem test_decode_wrl : decode 0b0001_00000011_00000010_00000000_0000 = .ok (.wrl 3 2) := by decide
theorem test_decode_rdl : decode 0b0010_11111111_00000001_00000000_0000 = .ok (.rdl 255 1) := by decide
theorem test_decode_wrq : decode 0b0011_00000000_00000011_00000000_0000 = .ok (.wrq 3) := by decide
theorem test_decode_rdq : decode 0b0100_00000000_10000000_00000000_0000 = .ok (.rdq 128) := by decide
theorem test_decode_wrqi : decode 0b0101_00000000_00000000_00000000_0000 = .ok .wrqi := by decide
theorem test_decode_rdqi : decode 0b0110_00000000_00000000_00000000_0000 = .ok .rdqi := by decide
theorem test_decode_commit : decode 0b0111_00000000_00000000_00000000_0000 = .ok .commit := by decide
theorem test_decode_mul : decode 0b1000_00000001_00100011_01000101_0000 = .ok (.mul 1 35 69) := by decide
theorem test_decode_rdst : decode 0b1001_00000000_00000000_00000000_0000 = .ok .rdst := by decide
/-- V137, V139, V141, V145: must-be-zero fields. V157: a reserved opcode. -/
theorem test_decode_reserved :
    decode 0x10000010 = .error .mustBeZeroNonzero ∧ decode 0x2000000F = .error .fieldZNonzero ∧
    decode 0x30103000 = .error .mustBeZeroNonzero ∧ decode 0x50001000 = .error .mustBeZeroNonzero ∧
    decode 0xA0000000 = .error .reservedOpcode := by decide
theorem test_decode_table_word :
    decodeTableWord 32 0x80123450 = some (.mul 1 35 69) ∧ decodeTableWord 32 0xFFFFFFFF = none := by decide
/-- R93: the assembler's words. -/
theorem test_encode_mul : encode (.mul 2 0 1) = some 0x80200010 := by decide

/-! ## One step per instruction, with the numbers of spec/95 -/

/-- V198: `NOP` while busy. -/
theorem test_nop : nextOf (exec .nop (f97Busy .reduce)) =
    some { f97Busy .reduce with rspValid := true, rdata := 0 } := by decide
/-- V170. -/
theorem test_wrl : (nextOf (exec (.wrl 1 0) { wide with wdata := 0xFEDCBA9876543210 })).map (·.e[1]?) =
    some (some [0xFEDCBA9876543210, 0]) := by decide
/-- V174: slot 4 of 4 is ignored. -/
theorem test_wrl_ignored : nextOf (exec (.wrl 4 0) { wide with wdata := 5 }) =
    some { wide with wdata := 5, rspValid := true, rdata := 0 } := by decide
/-- After the store of V172's setting: limb 1 of slot 1. -/
theorem test_rdl : (nextOf (exec (.rdl 1 1) { wide with e := [[0, 0], [3, 9], [0, 0], [0, 0]] })).map (·.rdata) =
    some 9 := by decide
/-- V176: ignored, and `rdata` is 0. -/
theorem test_rdl_ignored : (nextOf (exec (.rdl 255 255) { wide with rdata := 7 })).map (·.rdata) = some 0 := by decide
/-- V180. -/
theorem test_wrq : (nextOf (exec (.wrq 0) { State.resetWith ⟨1, 4⟩ with wdata := 0x61 })).map (·.q) =
    some [0x61] := by decide
/-- V185: RUN mode. -/
theorem test_wrq_run : (nextOf (exec (.wrq 0) { f97 with wdata := 0x0F })).map (·.q) = some [0x61] := by decide
/-- V191: reads work in RUN. -/
theorem test_rdq : (nextOf (exec (.rdq 0) f97)).map (·.rdata) = some 0x61 := by decide
/-- V182. -/
theorem test_wrqi : (nextOf (exec .wrqi { f97Setup with wdata := 3 })).map (·.qinv0) = some 3 := by decide
/-- V186. -/
theorem test_wrqi_run : (nextOf (exec .wrqi { f97 with wdata := 0 })).map (·.qinv0) =
    some 0x5C5F02A3A0FD5C5F := by decide
/-- V183. -/
theorem test_rdqi : (nextOf (exec .rdqi f97)).map (·.rdata) = some 0x5C5F02A3A0FD5C5F := by decide
/-- V184, V190: `COMMIT` with nothing written. -/
theorem test_commit : (nextOf (exec .commit State.reset)).map (·.mode) = some .run := by decide
/-- V201 at acceptance. -/
theorem test_mul : nextOf (exec (.mul 2 0 1) f97) =
    some { f97 with
      zd := 2, xs := 0, ys := 1, t := [0], i := 0, ph := .multiply, busy := true, rspValid := true, rdata := 0 } := by
  decide
/-- V206: `ys = 9` is out of range. -/
theorem test_mul_ignored : (nextOf (exec (.mul 0 0 9) f97)).map (·.busy) = some false := by decide
/-- V196 and V197. -/
theorem test_rdst : (nextOf (exec .rdst f97)).map (·.rdata) = some 2 ∧
    (nextOf (exec .rdst (f97Busy .quotient))).map (·.rdata) = some 3 := by decide
/-- V72: every input word all-ones. -/
theorem test_mac : (nextOf (exec .mac (wideBusy .multiply [0xFFFFFFFFFFFFFFFF, 0xFFFFFFFFFFFFFFFF]
    [0xFFFFFFFFFFFFFFFF, 0xFFFFFFFFFFFFFFFF] [1, 1] 0xFFFFFFFFFFFFFFFF))).map (fun s => (s.t, s.a, s.ph)) =
    some ([0, 0xFFFFFFFFFFFFFFFF], 0xFFFFFFFFFFFFFFFF, .quotient) := by decide
/-- V83. -/
theorem test_quot : (nextOf (exec .quot { f97Busy .quotient with t := [0x4B4] })).map (fun s => (s.m, s.ph)) =
    some (0x6ED8699127966ECC, .reduce) := by decide
/-- V94: the first `RED` of V32, `I = 0` of `W = 2`. -/
theorem test_red : (nextOf (exec .red { wideBusy .reduce [0x04, 0xFFFFFFFFFFFFFFFE] [0, 0]
    [0xFFFFFFFFFFFFFFFF, 0x7FFFFFFFFFFFFFFF] 0 with m := 0x04, a := 0x7FFFFFFFFFFFFFFE })).map
      (fun s => (s.t, s.c, s.ph, s.i)) =
    some ([0xFFFFFFFFFFFFFFFE, 0x8000000000000000], 0x02, .multiply, 1) := by decide
/-- V92: the Shift wraps, and `I = W - 1`. -/
theorem test_red_wraps : (nextOf (exec .red { f97Busy .reduce with
    t := [0x01], a := 0xFFFFFFFFFFFFFFFE, m := 0x5C5F02A3A0FD5C5F })).map (fun s => (s.t, s.c, s.ph)) =
    some ([0x21], 0x23, .finalReduce) := by decide
/-- V113: low limb larger, top limb smaller. -/
theorem test_fred_keeps : (nextOf (exec .fred (wideBusy .finalReduce [0xFFFFFFFFFFFFFFFF, 0] [0, 0] [0, 1] 0))).map
    (fun s => (s.e[2]?, s.busy, s.ph)) = some (some [0xFFFFFFFFFFFFFFFF, 0], false, .idle) := by decide
/-- V114: low limb smaller, top limb larger. -/
theorem test_fred_subtracts : (nextOf (exec .fred (wideBusy .finalReduce [0, 1] [0, 0] [0xFFFFFFFFFFFFFFFF, 0] 0))).map
    (fun s => s.e[2]?) = some (some [1, 0]) := by decide

/-! ## The step and the host's side -/

/-- V199: an `RDL` presented while busy is held, and the sequencer moves. -/
theorem test_held : (nextOf (step ((f97Busy .quotient).present ⟨0x20000000, 0⟩))).map
    (fun s => (s.host, s.ph, s.rspValid)) = some ([.command ⟨0x20000000, 0⟩], .reduce, false) := by decide
/-- P4 line 7: `COMMIT`'s opcode with `a = 1` is accepted and ignored. -/
theorem test_reserved_word : nextOf (step (f97Setup.present ⟨0x70100000, 0⟩)) =
    some { f97Setup with rspValid := true, rdata := 0 } := by decide
/-- The first instruction after reset runs. -/
theorem test_first_instruction : (nextOf (step (State.reset.withFetchWord 32 0x70000000))).map (·.mode) =
    some .run := by decide
/-- P1 lines 1 to 3 are `SETQ #97, #0x5C5F02A3A0FD5C5F`. -/
theorem test_setq : Line.expand 1 (.setq 97 0x5C5F02A3A0FD5C5F) =
    [.command ⟨0x30000000, 0x61⟩, .command ⟨0x50000000, 0x5C5F02A3A0FD5C5F⟩, .command ⟨0x70000000, 0⟩] := by decide
/-- P3 lines 22 to 25 are `RDE e2`. -/
theorem test_rde : Line.expand 4 (.rde 2) = [.command ⟨0x20200000, 0⟩, .command ⟨0x20201000, 0⟩,
    .command ⟨0x20202000, 0⟩, .command ⟨0x20203000, 0⟩] := by decide
/-- R94: a busy block answers the poll of `WAIT` with bit 0 = 1, and the host polls again. -/
theorem test_wait_goes_on : (nextOf (step { f97Busy .reduce with host := programInputs 1 [.wait 0, .plain .nop 0] })).map
    (fun s => (s.host, s.rspValid, s.rdata, s.ph)) =
    some ([.wait 0 1, .command ⟨0, 0⟩], true, 3, .reduce) := by decide
/-- R94: a block that is not busy ends `WAIT`. -/
theorem test_wait_ends : (nextOf (step { f97 with host := programInputs 1 [.wait 0, .plain .nop 0] })).map
    (fun s => (s.host, s.rspValid, s.rdata)) = some ([.command ⟨0, 0⟩], true, 2) := by decide
/-- R230: no word is ready at an edge with `rst = 1`. -/
theorem test_not_ready_at_reset : cmdReady { f97 with host := [.reset none] } 0x00000000 = false := by decide
/-- V1, the source's product `mont(3) * mont(5) = mont(15)`. -/
theorem test_montMul : montMul [0x56] [0x0E] [0x61] 0x5C5F02A3A0FD5C5F = [0x2A] := by decide
/-- V12, out of contract: "A model must reproduce `0x21` from the rules". -/
theorem test_montMul_out_of_contract :
    montMul [0xFFFFFFFFFFFFFFFF] [0xFFFFFFFFFFFFFFFF] [0x61] 0x5C5F02A3A0FD5C5F = [0x21] := by decide
/-- The hand-checked instance of spec/95 section 5. -/
theorem test_macDual : macDual [0xFFFFFFFFFFFFFFFF, 0xFFFFFFFFFFFFFFFF] [0xFFFFFFFFFFFFFFFF, 0xFFFFFFFFFFFFFFFF]
    0xFFFFFFFFFFFFFFFF = ([0, 0xFFFFFFFFFFFFFFFF], 0xFFFFFFFFFFFFFFFF) := by decide
/-- The `qInv0` of F97 (spec/95 section 2). -/
theorem test_qInv0 : qInv0Of 0x61 = 0x5C5F02A3A0FD5C5F := by decide

/-! ## Witnesses: states and operands that meet the hypotheses of the statements, clause by clause -/

theorem witness_roundTrip : (Instr.mul 0 255 128).WellFormed ∧ ¬ Instr.quot.WellFormed := by decide
theorem witness_decodedWord : decode 0x8FFFFFF0 = .ok (.mul 255 255 255) := by decide
theorem witness_opcodeMap : (⟨0x30000000, 0xFFF00FFF⟩ : TableRow) ∈ opcodeMap := by decide
theorem witness_stepRuns :
    (f97.present ⟨0x80200010, 0⟩).host = [.command ⟨0x80200010, 0⟩] ∧
    cmdReady (f97.present ⟨0x80200010, 0⟩) 0x80200010 = true ∧ decode 0x80200010 = .ok (.mul 2 0 1) := by decide
/-- A command that is ready while the block is busy. -/
theorem witness_stepRuns_busy :
    cmdReady (f97Busy .reduce) 0x90000000 = true ∧ decode 0x90000000 = .ok .rdst := by decide
theorem witness_ignored_reserved : f97.busy = false ∧ ignoredCause f97 0xF0000000 ∧ ignoredCause f97 0x00000001 := by
  refine ⟨by decide, ?_, ?_⟩
  · have h : decode 0xF0000000 = .error .reservedOpcode := by decide
    simp only [ignoredCause, h]
  · have h : decode 0x00000001 = .error .fieldZNonzero := by decide
    simp only [ignoredCause, h]
theorem witness_ignored_index : f97.busy = false ∧ ignoredCause f97 0x10400000 ∧ ignoredCause f97 0x20001000 := by
  refine ⟨by decide, ?_, ?_⟩
  · have h : decode 0x10400000 = .ok (.wrl 4 0) := by decide
    simp only [ignoredCause, h]; decide
  · have h : decode 0x20001000 = .ok (.rdl 0 1) := by decide
    simp only [ignoredCause, h]; decide
theorem witness_ignored_mode : ignoredCause f97 0x30000000 ∧ ignoredCause f97 0x70000000 ∧ ignoredCause f97Setup 0x80000000 := by
  refine ⟨?_, ?_, ?_⟩
  · have h : decode 0x30000000 = .ok (.wrq 0) := by decide
    simp only [ignoredCause, h]; decide
  · have h : decode 0x70000000 = .ok .commit := by decide
    simp only [ignoredCause, h]; decide
  · have h : decode 0x80000000 = .ok (.mul 0 0 0) := by decide
    simp only [ignoredCause, h]; decide
theorem witness_held :
    cmdReady (f97Busy .multiply) 0x20000000 = false ∧ ((f97Busy .multiply).present ⟨0x20000000, 0⟩).Inv := by decide
theorem witness_sequencer : (f97Busy .multiply).host = [] ∧ { f97Busy .reduce with host := [.idle] }.host = [.idle] ∧
    { f97Busy .reduce with host := [.wait 0 1] }.host = [.wait 0 (0 + 1)] ∧
    f97.ph ≠ .multiply ∧ f97.ph ≠ .quotient ∧ f97.ph ≠ .reduce ∧ f97.ph ≠ .finalReduce := by decide
/-- A reset with a command presented, and what follows it is no reset. -/
theorem witness_reset : { f97Busy .reduce with host := [.reset (some ⟨0x70000000, 0⟩), .idle] }.host =
    .reset (some ⟨0x70000000, 0⟩) :: [.idle] ∧ ∀ p r, [HostInput.idle] ≠ .reset p :: r := ⟨rfl, fun _ _ => nofun⟩
/-- For the limb commands: the last slot and limb in range, the first out of range, and a busy block. -/
theorem witness_limbAccess : wide.Inv ∧ wide.busy = false ∧
    ((3 : Index).toNat < wide.cfg.ne ∧ (1 : Index).toNat < wide.cfg.w) ∧
    wide.cfg.ne ≤ (4 : Index).toNat ∧ wide.cfg.w ≤ (2 : Index).toNat ∧ (f97Busy .reduce).busy = true := by decide
/-- For the parameter commands: SETUP and RUN, both idle, and a busy block. -/
theorem witness_fieldParameters : wide.Inv ∧ wide.busy = false ∧ wide.mode = .setup ∧ (1 : Index).toNat < wide.cfg.w ∧
    wide.cfg.w ≤ (2 : Index).toNat ∧ f97.busy = false ∧ f97.mode = .run ∧ (f97Busy .quotient).busy = true := by decide
/-- For `MUL`: the last slot in range, the first out of range, SETUP mode, and a busy block. -/
theorem witness_mul : f97.Inv ∧ f97.busy = false ∧ f97.mode = .run ∧ f97.host = [] ∧ (3 : Index).toNat < f97.cfg.ne ∧
    f97.cfg.ne ≤ (4 : Index).toNat ∧ f97Setup.busy = false ∧ f97Setup.mode = .setup ∧
    slotAt f97 0 = some [0x56] ∧ slotAt f97 3 = some [0x07] := by decide
theorem witness_rdst : f97.Inv ∧ f97Setup.Inv ∧ (f97Busy .reduce).Inv := ⟨by decide, by decide, by decide⟩
theorem witness_mac : (f97Busy .multiply).Inv ∧ (f97Busy .multiply).ph = .multiply := by decide
theorem witness_quot : (f97Busy .quotient).Inv ∧ (f97Busy .quotient).ph = .quotient := by decide
theorem witness_red : (f97Busy .reduce).Inv ∧ (f97Busy .reduce).ph = .reduce ∧
    (wideBusy .reduce [1, 2] [0, 0] [3, 4] 0).Inv ∧ (1 : Nat) < (wideBusy .reduce [1, 2] [0, 0] [3, 4] 0).cfg.w := by decide
theorem witness_fred : (f97Busy .finalReduce).Inv ∧ (f97Busy .finalReduce).ph = .finalReduce := by decide
theorem witness_droppedWord : mulLo 0x61 0x5C5F02A3A0FD5C5F = BitVec.ofNat 64 (2 ^ 64 - 1) := by decide
theorem witness_redIsExact : ([0x4B4] : Limbs).length = 1 ∧ ([0x61] : Limbs).length = 1 ∧
    macFn [0] [0x56] 0x0E = ([0x4B4], 0) := by decide
theorem witness_reducer : ([0xC1] : Limbs).length = ([0x61] : Limbs).length ∧
    val [0xC1] < 2 * val [0x61] ∧ 2 * val [0x61] ≤ val [0xC2] := by decide
theorem witness_limbVectors : 0xFF < radix 1 := by decide
theorem witness_almostReduced : ParamsValid 1 [0x61] 0x5C5F02A3A0FD5C5F ∧ val [0x56] + val [0x61] ≤ radix 1 := by decide
/-- V8, V7, V2 and V4 in F97: each clause of the corner cases. -/
theorem witness_cornerCases : ParamsInDomain 1 [0x61] 0x5C5F02A3A0FD5C5F ∧ val [0x60] < val [0x61] ∧
    val [0x3D] = radix 1 % val [0x61] ∧ val [0x01] = 1 ∧ val [0x23] = radix 1 ^ 2 % val [0x61] ∧
    val [0x0E] < val [0x61] ∧ val [0x60] = val [0x61] - 1 := by decide
theorem witness_qInv0 : (0x61 : Word).toNat % 2 = 1 ∧ (0x62 : Word).toNat % 2 = 0 := by decide
/-- Hosts that let a `MUL` of a block with `W = 1` complete: with nothing more to present, with a held `RDL`, with two polls and a
`MUL` behind them, in `WAIT`, and with a reset right after the last of the four steps; and one whose reset comes in the fourth. -/
theorem witness_mulHosts :
    letsMulFinish 4 [] = true ∧ letsMulFinish 4 [.command ⟨0x20000000, 0⟩, .reset none] = true ∧
    letsMulFinish 4 [.command ⟨0x90000000, 0⟩, .command ⟨0, 0⟩, .command ⟨0x80000000, 0⟩] = true ∧
    letsMulFinish 4 [.wait 2 0] = true ∧ letsMulFinish 4 [.idle, .idle, .idle, .idle, .reset none] = true ∧
    letsMulFinish 4 [.idle, .idle, .idle, .reset none] = false ∧
    acceptedWhileBusy 0x20000000 = false := by decide
/-- A `MUL` with a held `RDL` behind it meets all that the statements on a whole `MUL` ask. -/
theorem witness_wholeMul : (f97.present ⟨0x20000000, 0⟩).Inv ∧
    letsMulFinish (3 * f97.cfg.w + 1) (f97.present ⟨0x20000000, 0⟩).host = true ∧ f97.busy = false ∧ f97.mode = .run ∧
    slotAt (f97.present ⟨0x20000000, 0⟩) 0 = some [0x56] ∧ (3 : Index).toNat < f97.cfg.ne := by decide
/-- `WAIT` on an idle and on a busy block. -/
theorem witness_wait : ({ f97 with host := [.wait 0 0] } : State).Inv ∧
    ({ f97Busy .multiply with host := [.wait 3 0, .idle] } : State).Inv := by decide
theorem witness_guarantee : ParamsInDomain f97.cfg.w f97.q f97.qinv0 ∧ val [0x56] < val f97.q := by decide
theorem witness_writers : ∃ t, exec .commit f97Setup = .next t ∧ t.mode ≠ f97Setup.mode := ⟨_, rfl, by decide⟩
/-- One step, with a reset still to come. -/
theorem witness_immutable : f97.mode = .run ∧
    (∀ k, k < 1 → ∀ v : State, Host.Core.run Sys2Proof.core k { f97 with host := [.idle, .reset none] } = .next v →
      ∀ p r, v.host ≠ .reset p :: r) ∧
    ∃ t : State, Host.Core.run Sys2Proof.core 1 { f97 with host := [.idle, .reset none] } = .next t := by
  refine ⟨rfl, ?_, _, rfl⟩
  intro k hk v hv p r
  obtain rfl : k = 0 := by omega
  obtain rfl : ({ f97 with host := [.idle, .reset none] } : State) = v := Host.Outcome.next.inj hv
  exact nofun
/-- A run from reset in which the block is busy: `COMMIT`, then `MUL e0, e0, e0`. -/
theorem witness_immutable_reset : ∃ t : State,
    Host.Core.run Sys2Proof.core 2
      { State.resetWith ⟨1, 1⟩ with host := [.command ⟨0x70000000, 0⟩, .command ⟨0x80000000, 0⟩] } = .next t ∧
    t.busy = true := ⟨_, rfl, by decide⟩
theorem witness_repeated : (∃ t, exec .rdqi f97 = .next t) ∧ ∃ t, exec .wrqi f97Setup = .next t := ⟨⟨_, rfl⟩, ⟨_, rfl⟩⟩
theorem witness_unusedDataWord : (∃ t, exec (.mul 2 0 1) f97 = .next t) ∧ f97.busy = false := ⟨⟨_, rfl⟩, rfl⟩
theorem witness_response : (∃ t, step (f97.present ⟨0x90000000, 0⟩) = .next t) ∧ (∃ t, step f97 = .next t) ∧
    ∃ t, step { f97 with host := [.wait 0 0] } = .next t := ⟨⟨_, rfl⟩, ⟨_, rfl⟩, ⟨_, rfl⟩⟩
theorem witness_legal : (⟨256, 256⟩ : Config).Legal ∧ (⟨1, 1⟩ : Config).Legal := by decide
theorem witness_stepKeeps : (f97Busy .reduce).Inv ∧ ∃ t, step (f97Busy .reduce) = .next t := ⟨by decide, _, rfl⟩
/-- Two states that differ in storage nothing has written, and a status read, which reads none of it. -/
theorem witness_unwritten :
    (State.reset.present ⟨0x90000000, 0⟩).Inv ∧ ({ State.reset.present ⟨0x90000000, 0⟩ with qinv0 := 7 } : State).Inv ∧
    SameWritten (State.reset.present ⟨0x90000000, 0⟩) { State.reset.present ⟨0x90000000, 0⟩ with qinv0 := 7 } ∧
    stepReadsWritten (State.reset.present ⟨0x90000000, 0⟩) ∧
    ∃ t, step (State.reset.present ⟨0x90000000, 0⟩) = .next t ∧ t.rspValid = true := by
  refine ⟨by decide, by decide, ?_, ?_, _, rfl, rfl⟩
  · exact ⟨rfl, rfl, rfl, rfl, rfl, rfl, rfl, rfl, fun _ _ _ => rfl, fun _ _ => rfl, fun h => by simp [State.reset] at h,
      fun h => by simp [State.reset] at h⟩
  · have h : action (State.reset.present ⟨0x90000000, 0⟩) = .perform .rdst State.reset := by decide
    simp only [stepReadsWritten, h, readsWritten]
theorem witness_hostProgram : f97Setup.Inv ∧ f97Setup.mode = .setup ∧ f97Setup.busy = false ∧ 97 < radix f97Setup.cfg.w ∧
    ({ f97Setup with host := programInputs 1 [.setq 97 3] } : State).Inv ∧
    ({ f97Setup with host := programInputs 1 [.wre 3 97] } : State).Inv ∧
    ({ f97Setup with host := programInputs 1 [.rde 3] } : State).Inv :=
  ⟨by decide, rfl, rfl, by decide, by decide, by decide, by decide⟩

end Sys2Proof.Tests
end

-- ==== Limb vectors as integers (R17) ====
section
/-! PROOFS. `val` and `limbs_W` are inverse. `lo64` and the division by `limbBase` take the lowest limb off a value, and `radix`
grows by one factor `limbBase` per limb; each fact about vectors is then an induction on their limbs. -/

namespace Sys2Proof.Machine

@[simp] theorem radix_zero : radix 0 = 1 := rfl

theorem radix_succ (w : Nat) : radix (w + 1) = limbBase * radix w := by
  rw [radix, radix, limbBase, Nat.mul_succ, Nat.pow_add, Nat.mul_comm]

theorem limbBase_pos : 0 < limbBase := Nat.two_pow_pos 64

theorem limb_lt_limbBase (d : Word) : d.toNat < limbBase := d.isLt

/-- The low word of a limb on top of a multiple of the base is the limb. -/
theorem lo64_limb_add_mul (d : Word) (n : Nat) : lo64 (d.toNat + limbBase * n) = d := by
  apply BitVec.eq_of_toNat_eq
  rw [lo64_toNat, Nat.add_mul_mod_self_left]
  exact Nat.mod_eq_of_lt (limb_lt_limbBase d)

theorem limb_add_mul_div_limbBase (d : Word) (n : Nat) : (d.toNat + limbBase * n) / limbBase = n := by
  rw [Nat.add_mul_div_left _ _ limbBase_pos, Nat.div_eq_of_lt (limb_lt_limbBase d), Nat.zero_add]

theorem val_lt_radix (v : Limbs) : val v < radix v.length := by
  induction v with
  | nil => exact Nat.one_pos
  | cons d ds ih =>
    calc val (d :: ds) < limbBase + limbBase * val ds := Nat.add_lt_add_right (limb_lt_limbBase d) _
      _ = limbBase * (val ds + 1) := by rw [Nat.mul_succ, Nat.add_comm]
      _ ≤ limbBase * radix ds.length := Nat.mul_le_mul_left _ ih
      _ = radix (d :: ds).length := (radix_succ ds.length).symm

theorem limbsOf_val (v : Limbs) : limbsOf v.length (val v) = v := by
  induction v with
  | nil => rfl
  | cons d ds ih =>
    rw [List.length_cons, limbsOf, val_cons, lo64_limb_add_mul, limb_add_mul_div_limbBase, ih]

/-- For any integer, not only one below `radix w`, `limbsOf w` keeps the value modulo the radix. -/
theorem val_limbsOf (w n : Nat) : val (limbsOf w n) = n % radix w := by
  induction w generalizing n with
  | zero => exact (Nat.mod_one n).symm
  | succ w ih => rw [limbsOf, val_cons, lo64_toNat, ih, radix_succ, Nat.mod_mul]

theorem val_limbsOf_of_lt {w n : Nat} (h : n < radix w) : val (limbsOf w n) = n := by
  rw [val_limbsOf, Nat.mod_eq_of_lt h]

/-- Settles O29: each direction of the inverse by induction on the limbs. -/
theorem limbVectorsAreIntegers : Obligations.LimbVectorsAreIntegers :=
  ⟨fun v => ⟨val_lt_radix v, limbsOf_val v⟩, fun w n h => ⟨limbsOf_length w n, val_limbsOf_of_lt h⟩⟩

end Sys2Proof.Machine
end

-- ==== What an instruction can do (R30, R89, R91, R92) ====
section
/-! PROOFS. `Effect i s t` lists, branch by branch, what `exec i` can do when it answers a next state, guards included. The frame
of each instruction, the response rule and the invariant are then one short case each. -/

namespace Sys2Proof.Machine

/-- `exec i` can lead from the first state to the second. -/
inductive Effect : Instr → State → State → Prop
  /-- A command other than `NOP` and `RDST` is held while the block is busy (R91). -/
  | held {i : Instr} {s : State} (hc : i.isCommand = true) (hn : i ≠ .nop) (hr : i ≠ .rdst) (hb : s.busy = true) :
      Effect i s s
  /-- A micro-operation is asked for outside its phase (R145). -/
  | otherPhase {i : Instr} {s : State} (hc : i.isCommand = false) : Effect i s s
  /-- A command answers and changes nothing else: a read, `NOP`, or an ignored command (R65, R92, R190). -/
  | answered {i : Instr} {s : State} (hc : i.isCommand = true) (v : Word) : Effect i s (s.respond v)
  /-- `WRL` stores its word (R110). -/
  | wroteLimb {idx k : Index} {s t : State} (hb : s.busy = false) (h : writeLoc s (elementLoc idx k) s.wdata = some t) :
      Effect (.wrl idx k) s (t.respond 0)
  /-- `WRQ` stores its word, in SETUP mode only (R120). -/
  | wroteModulus {k : Index} {s t : State} (hb : s.busy = false) (hm : s.mode = .setup)
      (h : writeLoc s (modulusLoc k) s.wdata = some t) : Effect (.wrq k) s (t.respond 0)
  /-- `WRQI` stores its word, in SETUP mode only (R122). -/
  | wroteQinv0 {s : State} (hb : s.busy = false) (hm : s.mode = .setup) :
      Effect .wrqi s ({ s with qinv0 := s.wdata, qinv0Written := true }.respond 0)
  /-- `COMMIT` leaves SETUP mode (R124). -/
  | committed {s : State} (hb : s.busy = false) : Effect .commit s ({ s with mode := .run }.respond 0)
  /-- `MUL` starts the sequencer (R141). -/
  | started {zd xs ys : Index} {s : State} (hb : s.busy = false) (hm : s.mode = .run) (hz : slotInRange s zd = true)
      (hx : slotInRange s xs = true) (hy : slotInRange s ys = true) :
      Effect (.mul zd xs ys) s ((s.start zd xs ys).respond 0)
  /-- `MAC` in its phase (R151). -/
  | accumulated {s : State} {x : Limbs} {yi : Word} (hp : s.ph = .multiply) (hx : slotAt s s.xs = some x)
      (hy : limbAt s s.ys.toNat s.i = some yi) :
      Effect .mac s { s with t := (macFn s.t x yi).1, a := (macFn s.t x yi).2, ph := .quotient }
  /-- `QUOT` in its phase (R153). -/
  | tookDigit {s : State} (hp : s.ph = .quotient) (ht : s.t ≠ []) :
      Effect .quot s { s with m := quotientDigit (s.t.headD 0) s.qinv0, ph := .reduce }
  /-- `RED` in its phase (R154). -/
  | reduced {s : State} (hp : s.ph = .reduce) (ht : s.t ≠ []) (hq : s.q ≠ []) :
      Effect .red s ({ s with t := (redFn s.t s.m s.q s.a).1, c := (redFn s.t s.m s.q s.a).2 } : State).afterReduce
  /-- `FRED` in its phase (R181). -/
  | stored {s t : State} (hp : s.ph = .finalReduce)
      (h : writeSlot s s.zd (fred s.t s.q) (inputsWritten s s.xs s.ys) = some t) :
      Effect .fred s { t with ph := .idle, busy := false }

theorem effect_answered_of_load {i : Instr} {s t : State} {l : Loc} (hc : i.isCommand = true)
    (h : loadWord l s = .next t) : Effect i s t := by
  rcases loadWord_cases l s with ⟨v, -, hv⟩ | ⟨-, hf⟩
  · obtain rfl : s.respond v = t := by simpa [hv] using h
    exact .answered hc v
  · simp [hf] at h

theorem effect_answered_of_ignore {i : Instr} {s t : State} (hc : i.isCommand = true) (h : ignore s = .next t) :
    Effect i s t := by
  obtain rfl : s.respond 0 = t := by simpa [ignore] using h
  exact .answered hc 0

theorem storeWord_next {s t : State} {l : Loc} (h : storeWord l s = .next t) :
    ∃ u, writeLoc s l s.wdata = some u ∧ t = u.respond 0 := by
  rcases storeWord_cases l s with ⟨u, hu, hs⟩ | ⟨-, hf⟩
  · exact ⟨u, hu, by simpa [hs] using h.symm⟩
  · simp [hf] at h

/-- A command under `whenAccepted`, not `NOP` or `RDST`: it is held, or its effect is what the command does in a free block. -/
theorem effect_of_whenAccepted {i : Instr} {s t : State} {f : State → Result} (hc : i.isCommand = true) (hn : i ≠ .nop)
    (hr : i ≠ .rdst) (h : whenAccepted s f = .next t) (hf : s.busy = false → f s = .next t → Effect i s t) :
    Effect i s t := by
  rcases whenAccepted_cases s f with ⟨hb, he⟩ | ⟨hb, he⟩
  · obtain rfl : s = t := by simpa [he] using h
    exact .held hc hn hr hb
  · exact hf hb (he ▸ h)

/-- A micro-operation: outside its phase nothing happens. -/
theorem effect_of_whenPhase {i : Instr} {p : Phase} {s t : State} {f : State → Result} (hc : i.isCommand = false)
    (h : whenPhase p s f = .next t) (hf : s.ph = p → f s = .next t → Effect i s t) : Effect i s t := by
  by_cases hp : s.ph = p
  · exact hf hp (by simpa [hp] using h)
  · obtain rfl : s = t := by simpa [hp] using h
    exact .otherPhase hc

/-- A command with a guard: where the guard fails it is ignored. -/
theorem effect_of_guard {i : Instr} {s t : State} {r : Result} {p : Prop} [Decidable p] (hc : i.isCommand = true)
    (h : (if p then r else ignore s) = .next t) (hf : p → r = .next t → Effect i s t) : Effect i s t := by
  by_cases hp : p
  · exact hf hp (by simpa [hp] using h)
  · exact effect_answered_of_ignore hc (by simpa [hp] using h)

theorem execNop_effect {s t : State} (h : execNop s = .next t) : Effect .nop s t := by
  obtain rfl : s.respond 0 = t := by simpa [execNop] using h
  exact .answered rfl 0

theorem execRdst_effect {s t : State} (h : execRdst s = .next t) : Effect .rdst s t :=
  effect_answered_of_load rfl h

theorem execRdl_effect {idx k : Index} {s t : State} (h : execRdl idx k s = .next t) : Effect (.rdl idx k) s t :=
  effect_of_whenAccepted rfl nofun nofun h fun _ h => effect_of_guard rfl h fun _ h => effect_answered_of_load rfl h

theorem execRdq_effect {k : Index} {s t : State} (h : execRdq k s = .next t) : Effect (.rdq k) s t :=
  effect_of_whenAccepted rfl nofun nofun h fun _ h => effect_of_guard rfl h fun _ h => effect_answered_of_load rfl h

theorem execRdqi_effect {s t : State} (h : execRdqi s = .next t) : Effect .rdqi s t :=
  effect_of_whenAccepted rfl nofun nofun h fun _ h => effect_answered_of_load rfl h

theorem execWrl_effect {idx k : Index} {s t : State} (h : execWrl idx k s = .next t) : Effect (.wrl idx k) s t := by
  refine effect_of_whenAccepted rfl nofun nofun h fun hb h => effect_of_guard rfl h fun _ h => ?_
  obtain ⟨u, hu, rfl⟩ := storeWord_next h
  exact .wroteLimb hb hu

theorem execWrq_effect {k : Index} {s t : State} (h : execWrq k s = .next t) : Effect (.wrq k) s t := by
  refine effect_of_whenAccepted rfl nofun nofun h fun hb h => effect_of_guard rfl h fun hg h => ?_
  have hm : s.mode = .setup := of_decide_eq_true (Bool.and_eq_true_iff.mp hg).1
  obtain ⟨u, hu, rfl⟩ := storeWord_next h
  exact .wroteModulus hb hm hu

theorem execWrqi_effect {s t : State} (h : execWrqi s = .next t) : Effect .wrqi s t := by
  refine effect_of_whenAccepted rfl nofun nofun h fun hb h => effect_of_guard rfl h fun hm h => ?_
  obtain ⟨u, hu, rfl⟩ := storeWord_next h
  obtain rfl : _ = u := Option.some.inj hu
  exact .wroteQinv0 hb hm

theorem execCommit_effect {s t : State} (h : execCommit s = .next t) : Effect .commit s t :=
  effect_of_whenAccepted rfl nofun nofun h fun hb h => effect_of_guard rfl h fun _ h =>
    Host.Outcome.next.inj h ▸ .committed hb

theorem execMul_effect {zd xs ys : Index} {s t : State} (h : execMul zd xs ys s = .next t) :
    Effect (.mul zd xs ys) s t := by
  refine effect_of_whenAccepted rfl nofun nofun h fun hb h => effect_of_guard rfl h fun hg h => ?_
  simp only [Bool.and_eq_true, decide_eq_true_eq] at hg
  obtain ⟨⟨⟨hm, hz⟩, hx⟩, hy⟩ := hg
  exact Host.Outcome.next.inj h ▸ .started hb hm hz hx hy

theorem execMac_effect {s t : State} (h : execMac s = .next t) : Effect .mac s t := by
  refine effect_of_whenPhase rfl h fun hp h => ?_
  cases hx : slotAt s s.xs with
  | none => simp [hx] at h
  | some x =>
    cases hy : limbAt s s.ys.toNat s.i with
    | none => simp [hx, hy] at h
    | some yi =>
      simp only [hx, hy, Host.Outcome.next.injEq] at h
      exact h ▸ .accumulated hp hx hy

theorem execQuot_effect {s t : State} (h : execQuot s = .next t) : Effect .quot s t := by
  refine effect_of_whenPhase rfl h fun hp h => ?_
  cases ht : s.t with
  | nil => simp [ht] at h
  | cons t0 ts =>
    simp only [ht, Host.Outcome.next.injEq] at h
    have he := Effect.tookDigit hp (ht ▸ List.cons_ne_nil t0 ts)
    simp only [ht, List.headD_cons] at he
    exact h ▸ he

theorem execRed_effect {s t : State} (h : execRed s = .next t) : Effect .red s t := by
  refine effect_of_whenPhase rfl h fun hp h => ?_
  cases ht : s.t with
  | nil => simp [ht] at h
  | cons t0 ts =>
    cases hq : s.q with
    | nil => simp [ht, hq] at h
    | cons q0 qs =>
      simp only [ht, hq, Host.Outcome.next.injEq] at h
      have he := Effect.reduced hp (ht ▸ List.cons_ne_nil t0 ts) (hq ▸ List.cons_ne_nil q0 qs)
      simp only [ht, hq] at he
      exact h ▸ he

theorem execFred_effect {s t : State} (h : execFred s = .next t) : Effect .fred s t := by
  refine effect_of_whenPhase rfl h fun hp h => ?_
  cases hw : writeSlot s s.zd (fred s.t s.q) (inputsWritten s s.xs s.ys) with
  | none => simp [hw] at h
  | some u =>
    simp only [hw, Host.Outcome.next.injEq] at h
    exact h ▸ .stored hp hw

/-- Whatever next state `exec` answers is one that `Effect` lists. -/
theorem exec_effect {i : Instr} {s t : State} (h : exec i s = .next t) : Effect i s t := by
  cases i with
  | nop => exact execNop_effect h
  | wrl => exact execWrl_effect h
  | rdl => exact execRdl_effect h
  | wrq => exact execWrq_effect h
  | rdq => exact execRdq_effect h
  | wrqi => exact execWrqi_effect h
  | rdqi => exact execRdqi_effect h
  | commit => exact execCommit_effect h
  | mul => exact execMul_effect h
  | rdst => exact execRdst_effect h
  | mac => exact execMac_effect h
  | quot => exact execQuot_effect h
  | red => exact execRed_effect h
  | fred => exact execFred_effect h

/-! ## Who writes what -/

/-- The sequencer's move out of `REDUCE` writes `PH` and `I` only (R145). -/
theorem State.afterReduce_eq (s : State) : s.afterReduce = { s with ph := s.afterReduce.ph, i := s.afterReduce.i } := by
  unfold State.afterReduce
  split <;> rfl

theorem State.afterReduce_of_last {s : State} (h : s.i + 1 = s.cfg.w) : s.afterReduce = { s with ph := .finalReduce } :=
  if_pos h

theorem State.afterReduce_of_more {s : State} (h : s.i + 1 ≠ s.cfg.w) :
    s.afterReduce = { s with i := s.i + 1, ph := .multiply } :=
  if_neg h

theorem State.afterReduce_rspValid (s : State) : s.afterReduce.rspValid = s.rspValid := by
  rw [State.afterReduce_eq]

/-- Settles O40: the frame of each branch of `Effect`. -/
theorem onlyTheListedWritersWrite : Obligations.OnlyTheListedWritersWrite := by
  intro i s t h
  cases exec_effect h with
  | held | otherPhase | answered => simp
  | wroteLimb _ hw => rw [writeLoc_e hw]; simp
  | wroteModulus _ hm hw => rw [writeLoc_q hw]; simp [hm]
  | wroteQinv0 _ hm => simp [hm]
  | committed => simp
  | started => simp
  | accumulated => simp
  | tookDigit => simp
  | reduced => rw [State.afterReduce_eq]; simp
  | stored _ hw => rw [writeSlot_eq hw]; simp

end Sys2Proof.Machine
end

-- ==== The step: acceptance and response (R41, R91, R94) ====
section
/-! PROOFS. A step is a reset, an acceptance (`Accepts`), or a step in which the host waits (`Passes`). Each of the three fixes the
action, and which of them it is depends on the host's inputs, `BUSY` and `MODE` only. -/

namespace Sys2Proof.Machine

/-! ## Decoded words are commands -/

theorem ifZero_eq_ok {b : Bool} {i j : Instr} (h : ifZero b i = .ok j) : i = j := by
  cases b with
  | true => exact Except.ok.inj h
  | false => exact nomatch h

/-- "No command word can issue" a micro-operation (R89). -/
theorem decode_isCommand {w : CmdWord} {i : Instr} (h : decode w = .ok i) : i.isCommand = true := by
  simp only [decode] at h
  split at h
  · exact nomatch h
  · split at h
    case h_9 => exact Except.ok.inj h ▸ rfl
    case h_11 => exact nomatch h
    all_goals exact ifZero_eq_ok h ▸ rfl

/-! ## The three kinds of step -/

/-- The next step accepts the command `c`, with the inputs `after` still to come: a presented command that is ready, or the `RDST`
of a waiting host (R91, R94). -/
def Accepts (s : State) (c : Command) (after : List HostInput) : Prop :=
  (s.host = .command c :: after ∧ cmdReady s c.cmd = true) ∨
  ∃ gap rest, s.host = .wait gap 0 :: rest ∧ c = pollCommand ∧ after = afterPoll (statusWord s) gap rest

/-- The next step accepts nothing and is no reset, with the inputs `rest` still to come. -/
def Passes (s : State) (rest : List HostInput) : Prop :=
  (s.host = [] ∧ rest = []) ∨ s.host = .idle :: rest ∨
  (∃ gap left after, s.host = .wait gap (left + 1) :: after ∧ rest = .wait gap left :: after) ∨
  (∃ c after, s.host = .command c :: after ∧ cmdReady s c.cmd = false ∧ rest = .command c :: after)

theorem step_trichotomy (s : State) :
    (∃ p rest, s.host = .reset p :: rest) ∨ (∃ c after, Accepts s c after) ∨ ∃ rest, Passes s rest := by
  match h : s.host with
  | [] => exact .inr (.inr ⟨[], .inl ⟨h, rfl⟩⟩)
  | .idle :: rest => exact .inr (.inr ⟨rest, .inr (.inl h)⟩)
  | .wait gap (left + 1) :: rest => exact .inr (.inr ⟨_, .inr (.inr (.inl ⟨gap, left, rest, h, rfl⟩))⟩)
  | .wait gap 0 :: rest => exact .inr (.inl ⟨_, _, .inr ⟨gap, rest, h, rfl, rfl⟩⟩)
  | .reset p :: rest => exact .inl ⟨p, rest, rfl⟩
  | .command c :: rest =>
    cases hr : cmdReady s c.cmd with
    | true => exact .inr (.inl ⟨c, rest, .inl ⟨h, hr⟩⟩)
    | false => exact .inr (.inr ⟨_, .inr (.inr (.inr ⟨c, rest, h, hr, rfl⟩))⟩)

theorem action_of_reset {s : State} {p : Option Command} {rest : List HostInput} (h : s.host = .reset p :: rest) :
    action s = .settle (s.afterReset rest) := by
  simp only [action, h]

theorem Accepts.action {s : State} {c : Command} {after : List HostInput} (h : Accepts s c after) :
    action s = acceptedAction c.cmd (s.quiet.accept c after) := by
  rcases h with ⟨h, hr⟩ | ⟨gap, rest, h, rfl, rfl⟩
  · simp only [Machine.action, h, hr, if_true]
  · simp only [Machine.action, h]

theorem Passes.action {s : State} {rest : List HostInput} (h : Passes s rest) :
    action s = sequencerAction (s.quiet.consume rest) := by
  rcases h with ⟨h, rfl⟩ | h | ⟨gap, left, after, h, rfl⟩ | ⟨c, after, h, hr, rfl⟩
  · simp only [Machine.action, h]
    rw [← h]; rfl
  · simp only [Machine.action, h]
  · simp only [Machine.action, h]
  · simp only [Machine.action, h, hr, Bool.false_eq_true, if_false]
    rw [← h]; rfl

/-- What is accepted may be accepted: the block is free, or the word is `NOP` or `RDST` (R91). -/
theorem Accepts.ready {s : State} {c : Command} {after : List HostInput} (h : Accepts s c after) :
    s.busy = false ∨ acceptedWhileBusy c.cmd = true := by
  rcases h with ⟨-, hr⟩ | ⟨gap, rest, -, rfl, -⟩
  · exact ((cmdReady_eq_true s c.cmd).mp hr).2
  · exact .inr (by decide)

theorem Accepts.not_passes {s : State} {c : Command} {after rest : List HostInput} (h : Accepts s c after) :
    ¬ Passes s rest := by
  rcases h with ⟨h, hr⟩ | ⟨gap, tail, h, -, -⟩
  · simp [Passes, h, hr]
  · simp [Passes, h]

/-- An accepted word, as an effect: an instruction that may be accepted now, or the answer to a RESERVED word (R91, R92). -/
theorem acceptedAction_cases {w : CmdWord} {s : State} (hr : s.busy = false ∨ acceptedWhileBusy w = true) :
    (∃ i, i.isCommand = true ∧ (s.busy = false ∨ i = .nop ∨ i = .rdst) ∧ acceptedAction w s = .perform i s) ∨
    acceptedAction w s = .settle (s.respond 0) := by
  cases hd : decode w with
  | error e => exact .inr (by simp only [acceptedAction, hd])
  | ok i =>
    refine .inl ⟨i, decode_isCommand hd, hr.imp_right fun hw => ?_, by simp only [acceptedAction, hd]⟩
    simpa [hd] using (acceptedWhileBusy_eq_true w).mp hw

/-- The sequencer's action: nothing in `IDLE`, else a micro-operation (R145). -/
theorem sequencerAction_cases (s : State) :
    (s.ph = .idle ∧ sequencerAction s = .settle s) ∨
    ∃ i, i.isCommand = false ∧ sequencerAction s = .perform i s := by
  cases h : s.ph with
  | idle => exact .inl ⟨rfl, by simp only [sequencerAction, h]⟩
  | multiply => exact .inr ⟨.mac, rfl, by simp only [sequencerAction, h]⟩
  | quotient => exact .inr ⟨.quot, rfl, by simp only [sequencerAction, h]⟩
  | reduce => exact .inr ⟨.red, rfl, by simp only [sequencerAction, h]⟩
  | finalReduce => exact .inr ⟨.fred, rfl, by simp only [sequencerAction, h]⟩

/-- Settles O6: the rest of the inputs, the command's data word and the lowered flag are what `quiet` and `accept` set. -/
theorem stepRunsTheDecodedCommand : Obligations.StepRunsTheDecodedCommand := by
  intro s c rest i hh hr hd
  rw [step_of_ready hh hr, hd]
  rfl

/-! ## The response -/

/-- A command that may be accepted answers. -/
theorem Effect.rspValid_of_command {i : Instr} {s t : State} (h : Effect i s t) (hc : i.isCommand = true)
    (hr : s.busy = false ∨ i = .nop ∨ i = .rdst) : t.rspValid = true := by
  cases h with
  | held _ hn hd hb => simp [hb, hn, hd] at hr
  | otherPhase hm => simp [hm] at hc
  | answered | wroteLimb | wroteModulus | wroteQinv0 | committed | started => rfl
  | accumulated | tookDigit | reduced | stored => exact nomatch hc

/-- A micro-operation answers nothing. -/
theorem Effect.rspValid_of_microOp {i : Instr} {s t : State} (h : Effect i s t) (hm : i.isCommand = false) :
    t.rspValid = s.rspValid := by
  cases h with
  | otherPhase | accumulated | tookDigit => rfl
  | reduced => exact State.afterReduce_rspValid _
  | stored _ hw => rw [writeSlot_eq hw]
  | held hc | answered hc => simp [hc] at hm
  | wroteLimb | wroteModulus | wroteQinv0 | committed | started => exact nomatch hm

theorem Accepts.rspValid {s t : State} {c : Command} {after : List HostInput} (h : Accepts s c after)
    (hs : step s = .next t) : t.rspValid = true := by
  rw [step, h.action] at hs
  rcases acceptedAction_cases (s := s.quiet.accept c after) h.ready with ⟨i, hc, hr, ha⟩ | ha <;> rw [ha] at hs
  · exact (exec_effect hs).rspValid_of_command hc hr
  · exact Host.Outcome.next.inj hs ▸ rfl

theorem Passes.rspValid {s t : State} {rest : List HostInput} (h : Passes s rest) (hs : step s = .next t) :
    t.rspValid = false := by
  rw [step, h.action] at hs
  rcases sequencerAction_cases (s.quiet.consume rest) with ⟨-, ha⟩ | ⟨i, hm, ha⟩ <;> rw [ha] at hs
  · exact Host.Outcome.next.inj hs ▸ rfl
  · exact (exec_effect hs).rspValid_of_microOp hm

/-- The two ways to be accepted that the statement of O45 names. -/
theorem exists_accepts_iff (s : State) :
    (∃ c after, Accepts s c after) ↔
      (∃ c rest, s.host = .command c :: rest ∧ cmdReady s c.cmd = true) ∨ ∃ gap rest, s.host = .wait gap 0 :: rest := by
  constructor
  · rintro ⟨c, after, h | ⟨gap, rest, h, -, -⟩⟩
    · exact .inl ⟨c, after, h⟩
    · exact .inr ⟨gap, rest, h⟩
  · rintro (⟨c, rest, h⟩ | ⟨gap, rest, h⟩)
    · exact ⟨c, rest, .inl h⟩
    · exact ⟨_, _, .inr ⟨gap, rest, h, rfl, rfl⟩⟩

/-- Settles O45: an accepted command answers, and neither a reset nor the sequencer does. -/
theorem responseFollowsAcceptance : Obligations.ResponseFollowsAcceptance := by
  intro s t hs
  rw [← exists_accepts_iff]
  rcases step_trichotomy s with ⟨p, rest, h⟩ | ⟨c, after, h⟩ | ⟨rest, h⟩
  · have ht : t.rspValid = false := by
      rw [step_of_reset h] at hs
      exact Host.Outcome.next.inj hs ▸ rfl
    simp [exists_accepts_iff, h, ht]
  · exact iff_of_true (h.rspValid hs) ⟨c, after, h⟩
  · exact iff_of_false (by simp [h.rspValid hs]) fun ⟨_, _, h'⟩ => h'.not_passes h

end Sys2Proof.Machine
end

-- ==== The invariant (R30, R35, R37, R129) ====
section
/-! PROOFS. The invariant holds after reset, and each branch of `Effect` keeps it. The port is no part of it, so the states that
`action` performs an instruction in meet it as the state itself does. -/

namespace Sys2Proof.Machine

/-! ## Reset -/

/-- Settles O11: by computing the reset state and its two views of `MODE` and `BUSY`. -/
theorem resetStateValues : Obligations.ResetStateValues :=
  ⟨fun cfg => ⟨rfl, rfl, rfl, by simp [statusWord, modeBit], rfl, rfl⟩, rfl⟩

theorem length_of_mem_replicate {α : Type} {n w : Nat} {v : α} :
    ∀ x ∈ List.replicate n (List.replicate w v), x.length = w := by
  intro x hx
  rw [List.eq_of_mem_replicate hx, List.length_replicate]

theorem resetWith_shaped {cfg : Config} (h : cfg.Legal) : (State.resetWith cfg).Shaped :=
  ⟨h, List.length_replicate, length_of_mem_replicate, List.length_replicate, List.length_replicate,
    List.length_replicate, length_of_mem_replicate, List.length_replicate⟩

theorem resetWith_controlled {cfg : Config} (h : cfg.Legal) : (State.resetWith cfg).Controlled :=
  ⟨by simp, h.1.1, by simp⟩

theorem resetWith_inv {cfg : Config} (h : cfg.Legal) : (State.resetWith cfg).Inv :=
  ⟨resetWith_shaped h, resetWith_controlled h⟩

/-- Settles O46: the reset state has stores of the right shape and is idle. -/
theorem resetStateMeetsTheInvariant : Obligations.ResetStateMeetsTheInvariant :=
  ⟨resetWith_inv (by decide), fun _ => resetWith_inv⟩

/-! ## Instructions -/

/-- A busy state with the control part of the invariant, from its parts. -/
theorem State.controlled_of_busy {s : State} (hb : s.busy = true) (hp : s.ph ≠ .idle) (hi : s.i < s.cfg.w)
    (h : s.mode = .run ∧ slotInRange s s.zd = true ∧ slotInRange s s.xs = true ∧ slotInRange s s.ys = true) :
    s.Controlled :=
  ⟨iff_of_true hb hp, hi, fun _ => h⟩

/-- An idle state with the control part of the invariant, from its parts. -/
theorem State.controlled_of_free {s : State} (hb : s.busy = false) (hp : s.ph = .idle) (hi : s.i < s.cfg.w) :
    s.Controlled :=
  ⟨by simp [hb, hp], hi, by simp [hb]⟩

/-- A block whose phase is not `IDLE` is busy with a `MUL` in RUN mode (R35, R129). -/
theorem State.Controlled.in_progress {s : State} (h : s.Controlled) (hp : s.ph ≠ .idle) :
    s.busy = true ∧ s.mode = .run ∧
      slotInRange s s.zd = true ∧ slotInRange s s.xs = true ∧ slotInRange s s.ys = true := by
  obtain ⟨hbp, -, hrun⟩ := h
  exact ⟨hbp.mpr hp, hrun (hbp.mpr hp)⟩

theorem State.Controlled.idle_of_free {s : State} (h : s.Controlled) (hb : s.busy = false) : s.ph = .idle := by
  obtain ⟨hbp, -, -⟩ := h
  simpa [hb] using hbp

theorem State.Inv.i_lt {s : State} (hs : s.Inv) : s.i < s.cfg.w := by
  obtain ⟨-, -, hi, -⟩ := hs
  exact hi

/-- "`BUSY = 1` if and only if `PH != IDLE`" (R35). -/
theorem State.Inv.ph_ne_idle {s : State} (hs : s.Inv) (hb : s.busy = true) : s.ph ≠ .idle := by
  obtain ⟨-, hbp, -⟩ := hs
  exact hbp.mp hb

/-- Control depends on none of the stores, so a write of a storage word keeps it. -/
theorem writeLoc_controlled {s t : State} {l : Loc} {v : Word} (h : writeLoc s l v = some t) (hs : s.Controlled) :
    t.Controlled := by
  cases l with
  | e idx k => rw [writeLoc_e h]; exact hs
  | q k => rw [writeLoc_q h]; exact hs
  | qinv0 => obtain rfl : _ = t := Option.some.inj h; exact hs
  | status => exact nomatch h

theorem writeLoc_inv {s t : State} {l : Loc} {v : Word} (h : writeLoc s l v = some t) (hs : s.Inv) : t.Inv :=
  ⟨writeLoc_shaped h hs.1, writeLoc_controlled h hs.2⟩

/-- A state with another accumulator of `W` limbs, and otherwise the same stores. -/
theorem State.Shaped.with_accumulator {s : State} {ts : Limbs} (h : s.Shaped) (hl : ts.length = s.cfg.w) :
    ({ s with t := ts } : State).Shaped := by
  obtain ⟨hc, he, hes, hq, -, hw, hws, hqw⟩ := h
  exact ⟨hc, he, hes, hq, hl, hw, hws, hqw⟩

theorem start_inv {s : State} {zd xs ys : Index} (hs : s.Inv) (hm : s.mode = .run) (hz : slotInRange s zd = true)
    (hx : slotInRange s xs = true) (hy : slotInRange s ys = true) : (s.start zd xs ys).Inv := by
  obtain ⟨hsh, -⟩ := hs
  have hshape : ({ s with t := List.replicate s.cfg.w 0 } : State).Shaped := hsh.with_accumulator List.length_replicate
  obtain ⟨⟨⟨hw, -⟩, -⟩, -⟩ := hsh
  exact ⟨hshape, State.controlled_of_busy rfl nofun hw ⟨hm, hz, hx, hy⟩⟩

/-- The sequencer's move out of `REDUCE` keeps `I` below `W` (R37, R145). -/
theorem afterReduce_inv {s : State} (hs : s.Inv) (hp : s.ph = .reduce) : s.afterReduce.Inv := by
  obtain ⟨hsh, hctl⟩ := hs
  obtain ⟨hb, hrun⟩ := hctl.in_progress (by simp [hp])
  obtain ⟨-, hi, -⟩ := hctl
  by_cases hl : s.i + 1 = s.cfg.w
  · rw [State.afterReduce_of_last hl]
    exact ⟨hsh, State.controlled_of_busy hb nofun hi hrun⟩
  · rw [State.afterReduce_of_more hl]
    exact ⟨hsh, State.controlled_of_busy hb nofun (Nat.lt_of_le_of_ne hi hl) hrun⟩

/-- The response is no part of the invariant. -/
theorem State.Inv.respond {s : State} (hs : s.Inv) (v : Word) : (s.respond v).Inv := hs

/-- Whatever an instruction does keeps the invariant. -/
theorem Effect.inv {i : Instr} {s t : State} (h : Effect i s t) (hs : s.Inv) : t.Inv := by
  cases h with
  | held | otherPhase | answered => exact hs
  | wroteLimb _ hw => exact (writeLoc_inv hw hs).respond 0
  | wroteModulus _ _ hw => exact (writeLoc_inv hw hs).respond 0
  | wroteQinv0 => exact hs
  | committed hb =>
    obtain ⟨hsh, hctl⟩ := hs
    obtain ⟨-, hi, -⟩ := id hctl
    exact ⟨hsh, State.controlled_of_free hb (hctl.idle_of_free hb) hi⟩
  | started hb hm hz hx hy => exact (start_inv hs hm hz hx hy).respond 0
  | accumulated hp hx hy =>
    obtain ⟨hsh, hctl⟩ := hs
    obtain ⟨hb, hrun⟩ := hctl.in_progress (by simp [hp])
    obtain ⟨-, hi, -⟩ := hctl
    refine ⟨hsh.with_accumulator ?_, State.controlled_of_busy hb nofun hi hrun⟩
    obtain ⟨-, -, hes, -, ht, -⟩ := hsh
    rw [macFn_length, ht, hes _ (List.mem_of_getElem? hx), Nat.min_self]
  | tookDigit hp =>
    obtain ⟨hsh, hctl⟩ := hs
    obtain ⟨hb, hrun⟩ := hctl.in_progress (by simp [hp])
    obtain ⟨-, hi, -⟩ := hctl
    exact ⟨hsh, State.controlled_of_busy hb nofun hi hrun⟩
  | reduced hp ht hq =>
    obtain ⟨hsh, hctl⟩ := hs
    refine afterReduce_inv ⟨hsh.with_accumulator ?_, hctl⟩ hp
    obtain ⟨-, -, -, hql, htl, -⟩ := hsh
    rw [redFn_length _ _ _ _ ht hq, hql, htl, Nat.min_self]
  | stored hp hw =>
    obtain ⟨hsh, -, hi, -⟩ := hs
    have hlen : (fred s.t s.q).length = s.cfg.w := by
      obtain ⟨-, -, -, hql, htl, -⟩ := hsh
      rw [fred_length _ _ (htl.trans hql.symm), htl]
    have hshape := writeSlot_shaped hw hlen hsh
    refine ⟨hshape, State.controlled_of_free rfl rfl ?_⟩
    rw [writeSlot_eq hw]
    exact hi

theorem exec_cfg {i : Instr} {s t : State} (h : exec i s = .next t) : t.cfg = s.cfg :=
  (onlyTheListedWritersWrite i s t h).1

/-! ## Steps -/

/-- The states that `action` settles in, or performs an instruction in, meet the invariant and have the same parameters. -/
theorem action_inv {s : State} (hs : s.Inv) :
    (∃ u, action s = .settle u ∧ u.Inv ∧ u.cfg = s.cfg) ∨ ∃ i u, action s = .perform i u ∧ u.Inv ∧ u.cfg = s.cfg := by
  rcases step_trichotomy s with ⟨p, rest, h⟩ | ⟨c, after, h⟩ | ⟨rest, h⟩
  · obtain ⟨⟨hc, -⟩, -⟩ := hs
    exact .inl ⟨_, action_of_reset h, resetWith_inv hc, rfl⟩
  · rw [h.action]
    rcases acceptedAction_cases (s := s.quiet.accept c after) h.ready with ⟨i, -, -, ha⟩ | ha
    · exact .inr ⟨i, _, ha, hs, rfl⟩
    · exact .inl ⟨_, ha, hs, rfl⟩
  · rw [h.action]
    rcases sequencerAction_cases (s.quiet.consume rest) with ⟨-, ha⟩ | ⟨i, -, ha⟩
    · exact .inl ⟨_, ha, hs, rfl⟩
    · exact .inr ⟨i, _, ha, hs, rfl⟩

/-- Settles O47: the step is an instruction, which keeps the invariant, or settles in a state that meets it. -/
theorem stepKeepsTheInvariant : Obligations.StepKeepsTheInvariant := by
  intro s t hs h
  rcases action_inv hs with ⟨u, ha, hu, hc⟩ | ⟨i, u, ha, hu, hc⟩ <;> rw [step, ha] at h
  · obtain rfl : u = t := Host.Outcome.next.inj h
    exact ⟨hu, hc⟩
  · exact ⟨(exec_effect h).inv hu, (exec_cfg h).trans hc⟩

end Sys2Proof.Machine
end

-- ==== Every instruction in a sound state (R110, R120, R145) ====
section
/-! PROOFS. In a state that meets the invariant every storage word the instructions ask for is held: one equation per
micro-operation, and that a write in range succeeds. -/

namespace Sys2Proof.Machine

variable {s : State}

theorem State.Shaped.readLoc_element (h : s.Shaped) {idx k : Index} (hi : slotInRange s idx = true)
    (hk : limbInRange s k = true) : ∃ v, readLoc s (elementLoc idx k) = some v :=
  h.limbAt_isSome (of_decide_eq_true hi) (of_decide_eq_true hk)

theorem State.Shaped.readLoc_modulus (h : s.Shaped) {k : Index} (hk : limbInRange s k = true) :
    ∃ v, readLoc s (modulusLoc k) = some v := by
  obtain ⟨-, -, -, hq, -⟩ := h
  exact ⟨_, List.getElem?_eq_getElem (hq ▸ of_decide_eq_true hk)⟩

/-- A word that can be read can be written, `STATUS` apart (R75). -/
theorem writeLoc_isSome_of_readLoc {l : Loc} {v : Word} (h : readLoc s l = some v) (hl : l ≠ .status) (v' : Word) :
    ∃ t, writeLoc s l v' = some t := by
  cases l with
  | e idx k => exact ⟨_, by rw [writeLoc, show limbAt s idx k = some v from h, Option.map_some]⟩
  | q k => exact ⟨_, by rw [writeLoc, show s.q[k]? = some v from h, Option.map_some]⟩
  | qinv0 => exact ⟨_, rfl⟩
  | status => exact absurd rfl hl

theorem exec_mac_of_inv (hs : s.Inv) (hp : s.ph = .multiply) :
    ∃ x yi, slotAt s s.xs = some x ∧ x.length = s.cfg.w ∧ limbAt s s.ys.toNat s.i = some yi ∧
      exec .mac s = .next { s with t := (macFn s.t x yi).1, a := (macFn s.t x yi).2, ph := .quotient } := by
  obtain ⟨hsh, hctl⟩ := hs
  obtain ⟨-, -, -, hxr, hyr⟩ := hctl.in_progress (by simp [hp])
  obtain ⟨-, hi, -⟩ := hctl
  obtain ⟨x, hx, hxl⟩ := hsh.slotAt_isSome (of_decide_eq_true hxr)
  obtain ⟨yi, hy⟩ := hsh.limbAt_isSome (of_decide_eq_true hyr) hi
  exact ⟨x, yi, hx, hxl, hy, by simp [exec, execMac, hp, hx, hy]⟩

/-- In a state of the right shape the accumulator and the modulus have a lowest limb, `W` being at least 1 (R9). -/
theorem State.Shaped.exists_lowest_limbs (h : s.Shaped) :
    ∃ t0 ts q0 qs, s.t = t0 :: ts ∧ s.q = q0 :: qs ∧ ts.length + 1 = s.cfg.w ∧ qs.length + 1 = s.cfg.w := by
  obtain ⟨⟨⟨hw, -⟩, -⟩, -, -, hq, ht, -⟩ := h
  match hts : s.t, hqs : s.q with
  | [], _ => simp [hts] at ht; omega
  | _, [] => simp [hqs] at hq; omega
  | t0 :: ts, q0 :: qs => exact ⟨t0, ts, q0, qs, rfl, rfl, by simpa [hts] using ht, by simpa [hqs] using hq⟩

theorem exec_quot_of_inv (hs : s.Inv) (hp : s.ph = .quotient) :
    exec .quot s = .next { s with m := quotientDigit (s.t.headD 0) s.qinv0, ph := .reduce } := by
  obtain ⟨t0, ts, -, -, ht, -⟩ := hs.1.exists_lowest_limbs
  simp [exec, execQuot, hp, ht]

theorem exec_red_of_inv (hs : s.Inv) (hp : s.ph = .reduce) :
    exec .red s =
      .next ({ s with t := (redFn s.t s.m s.q s.a).1, c := (redFn s.t s.m s.q s.a).2 } : State).afterReduce := by
  obtain ⟨t0, ts, q0, qs, ht, hq, -⟩ := hs.1.exists_lowest_limbs
  simp [exec, execRed, hp, ht, hq]

theorem exec_fred_of_inv (hs : s.Inv) (hp : s.ph = .finalReduce) :
    exec .fred s =
      .next { s with
        e := s.e.set s.zd.toNat (fred s.t s.q)
        eWritten := s.eWritten.set s.zd.toNat (List.replicate s.cfg.w (inputsWritten s s.xs s.ys))
        ph := .idle
        busy := false } := by
  obtain ⟨hsh, hctl⟩ := hs
  obtain ⟨-, -, hzr, -⟩ := hctl.in_progress (by simp [hp])
  obtain ⟨z, hz, -⟩ := hsh.slotAt_isSome (of_decide_eq_true hzr)
  simp [exec, execFred, hp, writeSlot, hz]

end Sys2Proof.Machine
end

-- ==== Unwritten storage has no influence (R38, R47, R48, R52) ====
section
/-! PROOFS. Two states that agree on written storage (`SameWritten`) take every step in parallel: the control state is the same in
both, so are the guards of every command, and a `MUL` whose inputs are all written computes with the same words in both. -/

namespace Sys2Proof.Machine

variable {s s' t t' : State}

/-! ## Marks -/

/-- Setting one mark sets no other. -/
theorem mark_of_modify {marks : List (List Bool)} {idx k a b : Nat}
    (h : ((marks.modify idx (fun x => x.set k true))[a]?.bind (fun v => v[b]?)) = some true)
    (hne : ¬ (a = idx ∧ b = k)) : (marks[a]?.bind (fun v => v[b]?)) = some true := by
  rw [List.getElem?_modify] at h
  by_cases ha : idx = a
  · subst ha
    have hb : k ≠ b := fun hb => hne ⟨rfl, hb.symm⟩
    cases hx : marks[idx]? with
    | none => simp [hx] at h
    | some x => simpa [hx, hb] using h
  · cases hx : marks[a]? with
    | none => simp [hx] at h
    | some x => simpa [hx, ha] using h

/-- A mark of a slot whose marks have all been set to `b` is `b`. -/
theorem written_of_mark_of_set {marks : List (List Bool)} {idx k w : Nat} {b : Bool}
    (h : ((marks.set idx (List.replicate w b))[idx]?.bind (fun v => v[k]?)) = some true) : b = true := by
  rw [List.getElem?_set_self'] at h
  cases hx : marks[idx]? with
  | none => simp [hx] at h
  | some x =>
    have hb : k < w ∧ b = true := by simpa [hx, List.getElem?_replicate] using h
    exact hb.2

theorem limbWritten_of_slotWritten (hs : s.Shaped) {idx : Index} (hw : slotWritten s idx = true) {k : Nat}
    (hk : k < s.cfg.w) : limbWritten s idx.toNat k := by
  obtain ⟨-, -, -, -, -, -, hrow, -⟩ := hs
  cases hx : s.eWritten[idx.toNat]? with
  | none => simp [slotWritten, hx] at hw
  | some x =>
    have hkx : k < x.length := hrow x (List.mem_of_getElem? hx) ▸ hk
    have hall : ∀ b ∈ x, b = true := by simpa [slotWritten, hx] using hw
    simp [limbWritten, hx, hkx, hall _ (List.getElem_mem hkx)]

theorem inputsWritten_iff (s : State) (xs ys : Index) :
    inputsWritten s xs ys = true ↔
      slotWritten s xs = true ∧ slotWritten s ys = true ∧ (∀ b ∈ s.qWritten, b = true) ∧ s.qinv0Written = true := by
  simp [inputsWritten, and_assoc]

/-! ## What the two states agree on -/

/-- Slots that are all written hold the same limbs. -/
theorem SameWritten.slotAt_eq (h : SameWritten s s') (hs : s.Inv) (hs' : s'.Inv) {idx : Index}
    (hi : slotInRange s idx = true) (hw : slotWritten s idx = true) : slotAt s idx = slotAt s' idx := by
  obtain ⟨hcfg, -, -, -, -, -, -, -, he, -⟩ := h
  have hi := of_decide_eq_true hi
  obtain ⟨x, hx, hxl⟩ := hs.1.slotAt_isSome hi
  obtain ⟨x', hx', hxl'⟩ := hs'.1.slotAt_isSome (hcfg ▸ hi)
  rw [hx, hx', Option.some.injEq]
  refine List.ext_getElem? fun k => ?_
  by_cases hk : k < s.cfg.w
  · have hlimb := he idx.toNat k (limbWritten_of_slotWritten hs.1 hw hk)
    rw [slotAt] at hx hx'
    simpa [limbAt, hx, hx'] using hlimb
  · rw [List.getElem?_eq_none (by omega), List.getElem?_eq_none (by rw [hxl', ← hcfg]; omega)]

/-- A modulus that is all written holds the same limbs. -/
theorem SameWritten.q_eq (h : SameWritten s s') (hs : s.Inv) (hs' : s'.Inv) (hw : ∀ b ∈ s.qWritten, b = true) :
    s.q = s'.q := by
  obtain ⟨hcfg, -, -, -, -, -, -, -, -, hq, -⟩ := h
  obtain ⟨⟨-, -, -, hql, -, -, -, hmarks⟩, -⟩ := hs
  obtain ⟨⟨-, -, -, hql', -⟩, -⟩ := hs'
  refine List.ext_getElem? fun k => ?_
  by_cases hk : k < s.cfg.w
  · have hkm : k < s.qWritten.length := hmarks ▸ hk
    exact hq k (by simp [hkm, hw _ (List.getElem_mem hkm)])
  · rw [List.getElem?_eq_none (by omega), List.getElem?_eq_none (by rw [hql', ← hcfg]; omega)]

/-- A `MUL` in progress has the same latched slots and loop index in both states. -/
theorem SameWritten.latched (h : SameWritten s s') (hb : s.busy = true) :
    s.i = s'.i ∧ s.zd = s'.zd ∧ s.xs = s'.xs ∧ s.ys = s'.ys ∧
      (inputsWritten s s.xs s.ys = true → ScratchAgrees s s') := by
  obtain ⟨-, -, -, -, -, -, -, -, -, -, -, hl⟩ := h
  exact hl hb

theorem SameWritten.inputsWritten_eq (h : SameWritten s s') (xs ys : Index) :
    inputsWritten s xs ys = inputsWritten s' xs ys := by
  obtain ⟨-, -, -, -, -, hew, hqw, hqiw, -⟩ := h
  rw [inputsWritten, inputsWritten, slotWritten, slotWritten, slotWritten, slotWritten, hew, hqw, hqiw]

theorem SameWritten.slotInRange_eq (h : SameWritten s s') (idx : Index) : slotInRange s idx = slotInRange s' idx := by
  obtain ⟨hcfg, -⟩ := h
  rw [slotInRange, slotInRange, hcfg]

theorem SameWritten.limbInRange_eq (h : SameWritten s s') (k : Index) : limbInRange s k = limbInRange s' k := by
  obtain ⟨hcfg, -⟩ := h
  rw [limbInRange, limbInRange, hcfg]

theorem SameWritten.statusWord_eq (h : SameWritten s s') : statusWord s = statusWord s' := by
  obtain ⟨-, hm, hb, -⟩ := h
  rw [statusWord, statusWord, hm, hb]

theorem SameWritten.refl (s : State) : SameWritten s s := by
  refine ⟨rfl, rfl, rfl, rfl, rfl, rfl, rfl, rfl, fun _ _ _ => rfl, fun _ _ => rfl, fun _ => rfl,
    fun _ => ⟨rfl, rfl, rfl, rfl, fun _ => ?_⟩⟩
  unfold ScratchAgrees
  split <;> simp

/-! ## Outcomes in parallel -/

/-- Both outcomes are next states that agree on written storage and on the response flag, and on the response if the reads were of
written storage. -/
def SameOutcome (reads : Prop) (r r' : Result) : Prop :=
  ∃ t t', r = .next t ∧ r' = .next t' ∧ SameWritten t t' ∧ t.rspValid = t'.rspValid ∧
    (reads → t.rspValid = true → t.rdata = t'.rdata)

variable {reads : Prop}

/-- Next states without a response. -/
theorem SameWritten.outcome_quiet (h : SameWritten t t') (hr : t.rspValid = false) (hr' : t'.rspValid = false) :
    SameOutcome reads (.next t) (.next t') :=
  ⟨t, t', rfl, rfl, h, hr.trans hr'.symm, by simp [hr]⟩

theorem SameWritten.outcome_respond (h : SameWritten t t') {v v' : Word} (hv : reads → v = v') :
    SameOutcome reads (.next (t.respond v)) (.next (t'.respond v')) :=
  ⟨_, _, rfl, rfl, h, rfl, fun hr _ => hv hr⟩

theorem SameWritten.outcome_ignore (h : SameWritten s s') : SameOutcome reads (ignore s) (ignore s') :=
  h.outcome_respond fun _ => rfl

theorem SameWritten.outcome_whenAccepted (h : SameWritten s s') (hr : s.rspValid = false) (hr' : s'.rspValid = false)
    {f : State → Result} (hf : s.busy = false → SameOutcome reads (f s) (f s')) :
    SameOutcome reads (whenAccepted s f) (whenAccepted s' f) := by
  obtain ⟨-, -, hb, -⟩ := id h
  cases hbs : s.busy with
  | true => simpa [hbs, ← hb] using h.outcome_quiet hr hr'
  | false => simpa [hbs, ← hb] using hf hbs

theorem SameWritten.outcome_load (h : SameWritten s s') {l : Loc} {v v' : Word} (hl : readLoc s l = some v)
    (hl' : readLoc s' l = some v') (hv : reads → readLoc s l = readLoc s' l) :
    SameOutcome reads (loadWord l s) (loadWord l s') := by
  simp only [loadWord, hl, hl']
  exact h.outcome_respond fun hr => by simpa [hl, hl'] using hv hr

/-- A write of the same word keeps the agreement in a free block. -/
theorem SameWritten.writeLoc (h : SameWritten s s') (hb : s.busy = false) {l : Loc} {v : Word}
    (ht : writeLoc s l v = some t) (ht' : writeLoc s' l v = some t') : SameWritten t t' := by
  obtain ⟨hcfg, hm, hbe, hp, hh, hew, hqw, hqiw, he, hq, hqi, -⟩ := h
  cases l with
  | e idx k =>
    have hsome : (limbAt s idx k).isSome := by
      by_contra hn
      simp [Machine.writeLoc, Option.not_isSome_iff_eq_none.mp hn] at ht
    have hsome' : (limbAt s' idx k).isSome := by
      by_contra hn
      simp [Machine.writeLoc, Option.not_isSome_iff_eq_none.mp hn] at ht'
    rw [writeLoc_e ht, writeLoc_e ht']
    refine ⟨hcfg, hm, hbe, hp, hh, by simp only [hew], hqw, hqiw, fun a b hab => ?_, hq, hqi, by simp [hb]⟩
    rw [limbAt_modify s _ idx k v hsome, limbAt_modify s' _ idx k v hsome']
    split
    · rfl
    · next hne => exact he a b (mark_of_modify hab hne)
  | q k =>
    have hk : k < s.q.length := by
      by_contra hn
      simp [Machine.writeLoc, List.getElem?_eq_none (Nat.le_of_not_lt hn)] at ht
    have hk' : k < s'.q.length := by
      by_contra hn
      simp [Machine.writeLoc, List.getElem?_eq_none (Nat.le_of_not_lt hn)] at ht'
    rw [writeLoc_q ht, writeLoc_q ht']
    refine ⟨hcfg, hm, hbe, hp, hh, hew, by simp only [hqw], hqiw, he, fun j hj => ?_, hqi, by simp [hb]⟩
    by_cases hjk : k = j
    · subst hjk
      simp [hk, hk']
    · simp only [List.getElem?_set_ne hjk] at hj ⊢
      exact hq j hj
  | qinv0 =>
    obtain rfl : _ = t := Option.some.inj ht
    obtain rfl : _ = t' := Option.some.inj ht'
    exact ⟨hcfg, hm, hbe, hp, hh, hew, hqw, rfl, he, hq, fun _ => rfl, by simp [hb]⟩
  | status => exact nomatch ht

theorem SameWritten.outcome_store (h : SameWritten s s') (hb : s.busy = false) (hd : s.wdata = s'.wdata) {l : Loc}
    (hl : l ≠ .status) {v v' : Word} (hv : readLoc s l = some v) (hv' : readLoc s' l = some v') :
    SameOutcome reads (storeWord l s) (storeWord l s') := by
  obtain ⟨t, ht⟩ := writeLoc_isSome_of_readLoc hv hl s.wdata
  obtain ⟨t', ht'⟩ := writeLoc_isSome_of_readLoc hv' hl s.wdata
  simp only [storeWord, ← hd, ht, ht']
  exact (h.writeLoc hb ht ht').outcome_respond fun _ => rfl

/-- The sequencer's move out of `REDUCE` is the same in both states. -/
theorem SameWritten.afterReduce (h : SameWritten s s') (hb : s.busy = true) (hp : s.ph = .reduce) :
    SameWritten s.afterReduce s'.afterReduce := by
  obtain ⟨hi, hzd, hxs, hys, hscratch⟩ := h.latched hb
  obtain ⟨hcfg, hm, hbe, -, hh, hew, hqw, hqiw, he, hq, hqi, -⟩ := h
  have ht : inputsWritten s s.xs s.ys = true → s.t = s'.t := fun hw => by
    obtain ⟨ht, -⟩ : s.t = s'.t ∧ s.a = s'.a ∧ s.m = s'.m := by simpa only [ScratchAgrees, hp] using hscratch hw
    exact ht
  by_cases hl : s.i + 1 = s.cfg.w
  · rw [State.afterReduce_of_last hl, State.afterReduce_of_last (hi ▸ hcfg ▸ hl)]
    exact ⟨hcfg, hm, hbe, rfl, hh, hew, hqw, hqiw, he, hq, hqi, fun _ => ⟨hi, hzd, hxs, hys, ht⟩⟩
  · rw [State.afterReduce_of_more hl, State.afterReduce_of_more (hi ▸ hcfg ▸ hl)]
    exact ⟨hcfg, hm, hbe, rfl, hh, hew, hqw, hqiw, he, hq, hqi,
      fun _ => ⟨congrArg (· + 1) hi, hzd, hxs, hys, ht⟩⟩

/-! ## The commands -/

section Instructions

variable (h : SameWritten s s') (hr : s.rspValid = false) (hr' : s'.rspValid = false)
include h hr hr'

theorem SameWritten.outcome_wrqi (hd : s.wdata = s'.wdata) : SameOutcome reads (execWrqi s) (execWrqi s') := by
  refine h.outcome_whenAccepted hr hr' fun hb => ?_
  obtain ⟨-, hm, -⟩ := id h
  simp only [← hm]
  split
  · exact h.outcome_store hb hd nofun rfl rfl
  · exact h.outcome_ignore

theorem SameWritten.outcome_rdqi : SameOutcome (readsWritten .rdqi s) (execRdqi s) (execRdqi s') := by
  obtain ⟨-, -, -, -, -, -, -, -, -, -, hqi, -⟩ := id h
  exact h.outcome_whenAccepted hr hr' fun _ =>
    h.outcome_load (l := .qinv0) rfl rfl fun hw => congrArg some (hqi hw)

theorem SameWritten.outcome_commit : SameOutcome reads (execCommit s) (execCommit s') := by
  refine h.outcome_whenAccepted hr hr' fun hb => ?_
  obtain ⟨hcfg, hm, hbe, hp, hh, hew, hqw, hqiw, he, hq, hqi, -⟩ := id h
  simp only [← hm]
  split
  · have hrun : SameWritten { s with mode := .run } { s' with mode := .run } :=
      ⟨hcfg, rfl, hbe, hp, hh, hew, hqw, hqiw, he, hq, hqi, by simp [hb]⟩
    exact hrun.outcome_respond fun _ => rfl
  · exact h.outcome_ignore

theorem SameWritten.outcome_mul (zd xs ys : Index) :
    SameOutcome reads (execMul zd xs ys s) (execMul zd xs ys s') := by
  refine h.outcome_whenAccepted hr hr' fun hb => ?_
  obtain ⟨hcfg, hm, -, -, hh, hew, hqw, hqiw, he, hq, hqi, -⟩ := id h
  simp only [← h.slotInRange_eq, ← hm]
  split
  · have hstart : SameWritten (s.start zd xs ys) (s'.start zd xs ys) :=
      ⟨hcfg, hm, rfl, rfl, hh, hew, hqw, hqiw, he, hq, hqi,
        fun _ => ⟨rfl, rfl, rfl, rfl, fun _ => congrArg (List.replicate · 0) (congrArg Config.w hcfg)⟩⟩
    exact hstart.outcome_respond fun _ => rfl
  · exact h.outcome_ignore

variable (hs : s.Inv) (hs' : s'.Inv)
include hs hs'

theorem SameWritten.outcome_rdl (idx k : Index) :
    SameOutcome (readsWritten (.rdl idx k) s) (execRdl idx k s) (execRdl idx k s') := by
  refine h.outcome_whenAccepted hr hr' fun _ => ?_
  simp only [← h.slotInRange_eq, ← h.limbInRange_eq]
  split
  · next hg =>
    obtain ⟨hi, hk⟩ := Bool.and_eq_true_iff.mp hg
    obtain ⟨v, hv⟩ := hs.1.readLoc_element hi hk
    obtain ⟨v', hv'⟩ := hs'.1.readLoc_element (h.slotInRange_eq idx ▸ hi) (h.limbInRange_eq k ▸ hk)
    obtain ⟨-, -, -, -, -, -, -, -, he, -⟩ := id h
    exact h.outcome_load hv hv' fun hw => he _ _ (hw hi hk)
  · exact h.outcome_ignore

theorem SameWritten.outcome_rdq (k : Index) :
    SameOutcome (readsWritten (.rdq k) s) (execRdq k s) (execRdq k s') := by
  refine h.outcome_whenAccepted hr hr' fun _ => ?_
  simp only [← h.limbInRange_eq]
  split
  · next hk =>
    obtain ⟨v, hv⟩ := hs.1.readLoc_modulus hk
    obtain ⟨v', hv'⟩ := hs'.1.readLoc_modulus (h.limbInRange_eq k ▸ hk)
    obtain ⟨-, -, -, -, -, -, -, -, -, hq, -⟩ := id h
    exact h.outcome_load hv hv' fun hw => hq _ (hw hk)
  · exact h.outcome_ignore

theorem SameWritten.outcome_wrl (hd : s.wdata = s'.wdata) (idx k : Index) :
    SameOutcome reads (execWrl idx k s) (execWrl idx k s') := by
  refine h.outcome_whenAccepted hr hr' fun hb => ?_
  simp only [← h.slotInRange_eq, ← h.limbInRange_eq]
  split
  · next hg =>
    obtain ⟨hi, hk⟩ := Bool.and_eq_true_iff.mp hg
    obtain ⟨v, hv⟩ := hs.1.readLoc_element hi hk
    obtain ⟨v', hv'⟩ := hs'.1.readLoc_element (h.slotInRange_eq idx ▸ hi) (h.limbInRange_eq k ▸ hk)
    exact h.outcome_store hb hd nofun hv hv'
  · exact h.outcome_ignore

theorem SameWritten.outcome_wrq (hd : s.wdata = s'.wdata) (k : Index) :
    SameOutcome reads (execWrq k s) (execWrq k s') := by
  refine h.outcome_whenAccepted hr hr' fun hb => ?_
  obtain ⟨-, hm, -⟩ := id h
  simp only [← h.limbInRange_eq, ← hm]
  split
  · next hg =>
    obtain ⟨-, hk⟩ := Bool.and_eq_true_iff.mp hg
    obtain ⟨v, hv⟩ := hs.1.readLoc_modulus hk
    obtain ⟨v', hv'⟩ := hs'.1.readLoc_modulus (h.limbInRange_eq k ▸ hk)
    exact h.outcome_store hb hd nofun hv hv'
  · exact h.outcome_ignore

/-- Every command runs in parallel in the two states. -/
theorem SameWritten.outcome_command (hd : s.wdata = s'.wdata) {i : Instr} (hc : i.isCommand = true) :
    SameOutcome (readsWritten i s) (exec i s) (exec i s') := by
  cases i with
  | nop => exact h.outcome_respond fun _ => rfl
  | wrl idx k => exact h.outcome_wrl hr hr' hs hs' hd idx k
  | rdl idx k => exact h.outcome_rdl hr hr' hs hs' idx k
  | wrq k => exact h.outcome_wrq hr hr' hs hs' hd k
  | rdq k => exact h.outcome_rdq hr hr' hs hs' k
  | wrqi => exact h.outcome_wrqi hr hr' hd
  | rdqi => exact h.outcome_rdqi hr hr'
  | commit => exact h.outcome_commit hr hr'
  | mul zd xs ys => exact h.outcome_mul hr hr' zd xs ys
  | rdst => exact h.outcome_load (l := .status) rfl rfl fun _ => congrArg some h.statusWord_eq
  | mac | quot | red | fred => exact nomatch hc

/-! ## The micro-operations -/

theorem SameWritten.outcome_mac (hp : s.ph = .multiply) :
    SameOutcome reads (exec .mac s) (exec .mac s') := by
  obtain ⟨hcfg, hm, hbe, hph, hh, hew, hqw, hqiw, he, hq, hqi, -⟩ := id h
  obtain ⟨hb, -, -, hxr, hyr⟩ := hs.2.in_progress (by simp [hp])
  obtain ⟨hi, hzd, hxs, hys, hscratch⟩ := h.latched hb
  obtain ⟨x, yi, hx, -, hy, hexec⟩ := exec_mac_of_inv hs hp
  obtain ⟨x', yi', hx', -, hy', hexec'⟩ := exec_mac_of_inv hs' (hph ▸ hp)
  have hagree : SameWritten { s with t := (macFn s.t x yi).1, a := (macFn s.t x yi).2, ph := .quotient }
      { s' with t := (macFn s'.t x' yi').1, a := (macFn s'.t x' yi').2, ph := .quotient } := by
    refine ⟨hcfg, hm, hbe, rfl, hh, hew, hqw, hqiw, he, hq, hqi, fun _ => ⟨hi, hzd, hxs, hys, fun hw => ?_⟩⟩
    obtain ⟨hwx, hwy, -⟩ := (inputsWritten_iff s s.xs s.ys).mp hw
    have hxx : x = x' := by
      rw [← Option.some.injEq, ← hx, ← hx', h.slotAt_eq hs hs' hxr hwx, hxs]
    have hyy : yi = yi' := by
      have hwi := limbWritten_of_slotWritten hs.1 hwy hs.i_lt
      rw [← Option.some.injEq, ← hy, ← hy', he _ _ hwi, hys, hi]
    have htt : s.t = s'.t := by simpa only [ScratchAgrees, hp] using hscratch hw
    exact ⟨by rw [hxx, hyy, htt], by rw [hxx, hyy, htt]⟩
  rw [hexec, hexec']
  exact hagree.outcome_quiet hr hr'

theorem SameWritten.outcome_quot (hp : s.ph = .quotient) :
    SameOutcome reads (exec .quot s) (exec .quot s') := by
  obtain ⟨hcfg, hm, hbe, hph, hh, hew, hqw, hqiw, he, hq, hqi, -⟩ := id h
  obtain ⟨hb, -⟩ := hs.2.in_progress (by simp [hp])
  obtain ⟨hi, hzd, hxs, hys, hscratch⟩ := h.latched hb
  have hagree : SameWritten { s with m := quotientDigit (s.t.headD 0) s.qinv0, ph := .reduce }
      { s' with m := quotientDigit (s'.t.headD 0) s'.qinv0, ph := .reduce } := by
    refine ⟨hcfg, hm, hbe, rfl, hh, hew, hqw, hqiw, he, hq, hqi, fun _ => ⟨hi, hzd, hxs, hys, fun hw => ?_⟩⟩
    obtain ⟨-, -, -, hwi⟩ := (inputsWritten_iff s s.xs s.ys).mp hw
    obtain ⟨htt, haa⟩ : s.t = s'.t ∧ s.a = s'.a := by simpa only [ScratchAgrees, hp] using hscratch hw
    exact ⟨htt, haa, by rw [htt, hqi hwi]⟩
  rw [exec_quot_of_inv hs hp, exec_quot_of_inv hs' (hph ▸ hp)]
  exact hagree.outcome_quiet hr hr'

theorem SameWritten.outcome_red (hp : s.ph = .reduce) : SameOutcome reads (exec .red s) (exec .red s') := by
  obtain ⟨hcfg, hm, hbe, hph, hh, hew, hqw, hqiw, he, hq, hqi, -⟩ := id h
  obtain ⟨hb, -⟩ := hs.2.in_progress (by simp [hp])
  obtain ⟨hi, hzd, hxs, hys, hscratch⟩ := h.latched hb
  have hagree : SameWritten { s with t := (redFn s.t s.m s.q s.a).1, c := (redFn s.t s.m s.q s.a).2 }
      { s' with t := (redFn s'.t s'.m s'.q s'.a).1, c := (redFn s'.t s'.m s'.q s'.a).2 } := by
    refine ⟨hcfg, hm, hbe, hph, hh, hew, hqw, hqiw, he, hq, hqi, fun _ => ⟨hi, hzd, hxs, hys, fun hw => ?_⟩⟩
    obtain ⟨-, -, hwq, -⟩ := (inputsWritten_iff s s.xs s.ys).mp hw
    obtain ⟨htt, haa, hmm⟩ : s.t = s'.t ∧ s.a = s'.a ∧ s.m = s'.m := by
      simpa only [ScratchAgrees, hp] using hscratch hw
    simp only [ScratchAgrees, hp]
    exact ⟨by rw [htt, haa, hmm, h.q_eq hs hs' hwq], haa, hmm⟩
  rw [exec_red_of_inv hs hp, exec_red_of_inv hs' (hph ▸ hp)]
  exact (hagree.afterReduce hb hp).outcome_quiet ((State.afterReduce_rspValid _).trans hr)
    ((State.afterReduce_rspValid _).trans hr')

/-- The destination counts as written only if the `MUL` read the same words in both states. -/
theorem SameWritten.outcome_fred (hp : s.ph = .finalReduce) :
    SameOutcome reads (exec .fred s) (exec .fred s') := by
  obtain ⟨hcfg, hm, -, hph, hh, hew, hqw, hqiw, he, hq, hqi, -⟩ := id h
  obtain ⟨hb, -, hzr, -⟩ := hs.2.in_progress (by simp [hp])
  obtain ⟨-, hzd, hxs, hys, hscratch⟩ := h.latched hb
  have hz : s.zd.toNat < s.cfg.ne := of_decide_eq_true hzr
  have hstored : inputsWritten s s.xs s.ys = true → fred s.t s.q = fred s'.t s'.q := fun hw => by
    obtain ⟨-, -, hwq, -⟩ := (inputsWritten_iff s s.xs s.ys).mp hw
    have htt : s.t = s'.t := by simpa only [ScratchAgrees, hp] using hscratch hw
    rw [htt, h.q_eq hs hs' hwq]
  rw [exec_fred_of_inv hs hp, exec_fred_of_inv hs' (hph ▸ hp)]
  refine SameWritten.outcome_quiet ?_ hr hr'
  refine ⟨hcfg, hm, rfl, rfl, hh, ?_, hqw, hqiw, fun a b hab => ?_, hq, hqi, nofun⟩
  · rw [hew, hzd, hcfg, hxs, hys, h.inputsWritten_eq]
  · by_cases ha : s.zd.toNat = a
    · subst ha
      obtain ⟨⟨-, hel, -⟩, -⟩ := hs
      obtain ⟨⟨-, hel', -⟩, -⟩ := hs'
      simp only [limbAt, ← hzd, List.getElem?_set_self', ← hstored (written_of_mark_of_set hab)]
      rw [List.getElem?_eq_getElem (hel ▸ hz), List.getElem?_eq_getElem (hel' ▸ hcfg ▸ hz)]
      rfl
    · simp only [limbWritten, List.getElem?_set_ne ha] at hab
      simp only [limbAt, ← hzd, List.getElem?_set_ne ha]
      exact he a b hab

/-- The sequencer moves in parallel in the two states. -/
theorem SameWritten.outcome_sequencer :
    SameOutcome reads (runAction (sequencerAction s)) (runAction (sequencerAction s')) := by
  obtain ⟨-, -, -, hph, -⟩ := id h
  cases hp : s.ph with
  | idle => simpa [sequencerAction, hp, ← hph] using h.outcome_quiet hr hr'
  | multiply => simpa [sequencerAction, hp, ← hph] using h.outcome_mac hr hr' hs hs' hp
  | quotient => simpa [sequencerAction, hp, ← hph] using h.outcome_quot hr hr' hs hs' hp
  | reduce => simpa [sequencerAction, hp, ← hph] using h.outcome_red hr hr' hs hs' hp
  | finalReduce => simpa [sequencerAction, hp, ← hph] using h.outcome_fred hr hr' hs hs' hp

end Instructions

/-! ## The step -/

/-- What is accepted next depends on the host's inputs, `BUSY` and `MODE`, the same in both states. -/
theorem SameWritten.accepts (h : SameWritten s s') {c : Command} {after : List HostInput} (ha : Accepts s c after) :
    Accepts s' c after := by
  have hst := h.statusWord_eq
  obtain ⟨-, -, hb, -, hh, -⟩ := h
  simpa only [Accepts, cmdReady, resetAsserted, hh, hb, hst] using ha

theorem SameWritten.passes (h : SameWritten s s') {rest : List HostInput} (hp : Passes s rest) : Passes s' rest := by
  obtain ⟨-, -, hb, -, hh, -⟩ := h
  simpa only [Passes, cmdReady, resetAsserted, hh, hb] using hp

/-- The states an instruction is performed in agree as the states before them do. -/
theorem SameWritten.accept (h : SameWritten s s') (c : Command) (after : List HostInput) :
    SameWritten (s.quiet.accept c after) (s'.quiet.accept c after) := by
  obtain ⟨hcfg, hm, hb, hp, -, hrest⟩ := h
  exact ⟨hcfg, hm, hb, hp, rfl, hrest⟩

theorem SameWritten.consume (h : SameWritten s s') (rest : List HostInput) :
    SameWritten (s.quiet.consume rest) (s'.quiet.consume rest) := by
  obtain ⟨hcfg, hm, hb, hp, -, hrest⟩ := h
  exact ⟨hcfg, hm, hb, hp, rfl, hrest⟩

theorem SameWritten.outcome_accepted (h : SameWritten s s') (hs : s.Inv) (hs' : s'.Inv) {c : Command}
    {after : List HostInput} (ha : Accepts s c after) :
    SameOutcome (stepReadsWritten s) (step s) (step s') := by
  have hu := h.accept c after
  simp only [step, stepReadsWritten, ha.action, (h.accepts ha).action, acceptedAction]
  cases hd : decode c.cmd with
  | ok i => exact hu.outcome_command rfl rfl hs hs' rfl (decode_isCommand hd)
  | error => exact hu.outcome_respond fun _ => rfl

/-- Two states that agree on written storage step in parallel. -/
theorem SameWritten.outcome_step (h : SameWritten s s') (hs : s.Inv) (hs' : s'.Inv) :
    SameOutcome (stepReadsWritten s) (step s) (step s') := by
  rcases step_trichotomy s with ⟨p, rest, hh⟩ | ⟨c, after, ha⟩ | ⟨rest, hp⟩
  · obtain ⟨hcfg, -, -, -, hhost, -⟩ := h
    rw [step_of_reset hh, step_of_reset (hhost ▸ hh), State.afterReset, State.afterReset, ← hcfg]
    exact (SameWritten.refl _).outcome_quiet rfl rfl
  · exact h.outcome_accepted hs hs' ha
  · rw [step, step, hp.action, (h.passes hp).action]
    exact (h.consume rest).outcome_sequencer rfl rfl hs hs'

/-- Settles O50: the second state's step is the one parallel to the first's. -/
theorem unwrittenStorageHasNoInfluence : Obligations.UnwrittenStorageHasNoInfluence := by
  intro s s' t hs hs' h ht
  obtain ⟨u, t', hu, ht', hrest⟩ := h.outcome_step hs hs'
  obtain rfl : u = t := Host.Outcome.next.inj (hu.symm.trans ht)
  exact ⟨t', ht', hrest⟩

end Sys2Proof.Machine
end

-- ==== The passes in integers (R17, R151 to R158, R181) ====
section
/-! PROOFS. What each pass does to `val`: every carry chain is an exact sum (`val_mulAddChain`), the low word that `RED` drops is
zero for a matching `QINV0`, and so one iteration of the loop divides exactly by the limb base. -/

namespace Sys2Proof.Machine

/-! ## Limb vectors -/

theorem val_append_singleton (v : Limbs) (d : Word) : val (v ++ [d]) = val v + radix v.length * d.toNat := by
  induction v with
  | nil => simp [val]
  | cons e v ih => rw [List.cons_append, val_cons, ih, val_cons, List.length_cons, radix_succ]; ring

theorem val_replicate_zero (w : Nat) : val (List.replicate w 0) = 0 := by
  induction w with
  | zero => rfl
  | succ w ih => rw [List.replicate_succ, val_cons, ih]; rfl

/-! ## The carry chain of `MAC` and `RED` -/

/-- The chain is exact: its limbs and its carry out are the sum it accumulates (R152, R157). -/
theorem val_mulAddChain (t x : Limbs) (k carry : Word) (h : t.length = x.length) :
    val (mulAddChain t x k carry).1 + radix t.length * (mulAddChain t x k carry).2.toNat =
      val t + val x * k.toNat + carry.toNat := by
  induction t generalizing x carry with
  | nil =>
    obtain rfl : x = [] := List.length_eq_zero_iff.mp h.symm
    simp [mulAddChain]
  | cons t0 ts ih => cases x with
    | nil => exact nomatch h
    | cons x0 xs =>
      have hsplit := lo64_add_hi64 _ (mulAdd_lt t0 x0 k carry)
      have hrest := ih xs (hi64 (t0.toNat + x0.toNat * k.toNat + carry.toNat)) (Nat.succ.inj h)
      simp only [mulAddChain, val_cons, List.length_cons, radix_succ]
      linear_combination hsplit + limbBase * hrest

/-- `MAC` is exact (R152). -/
theorem val_macFn (t x : Limbs) (yi : Word) (h : t.length = x.length) :
    val (macFn t x yi).1 + radix t.length * (macFn t x yi).2.toNat = val t + val x * yi.toNat := by
  simpa [macFn] using val_mulAddChain t x yi 0 h

/-- `RED` before the Shift is exact: its low word, its limbs and its carry `C` are the sum it accumulates (R157). -/
theorem val_redFn_before_shift (t0 q0 m a : Word) (ts qs : Limbs) (h : ts.length = qs.length) :
    (lo64 (t0.toNat + m.toNat * q0.toNat)).toNat +
        limbBase * (val (redFn (t0 :: ts) m (q0 :: qs) a).1.dropLast +
          radix ts.length * (redFn (t0 :: ts) m (q0 :: qs) a).2.toNat) =
      val (t0 :: ts) + m.toNat * val (q0 :: qs) := by
  have hlow : t0.toNat + m.toNat * q0.toNat < 2 ^ 128 := by simpa using mulAdd_lt t0 m q0 0
  have hsplit := lo64_add_hi64 _ hlow
  have hchain := val_mulAddChain ts qs m (hi64 (t0.toNat + m.toNat * q0.toNat)) h
  simp only [redFn, List.dropLast_concat, val_cons]
  linear_combination hsplit + limbBase * hchain

/-- The Shift puts `lo64(C + A)` on top of the limbs (R156). -/
theorem val_redFn (t0 q0 m a : Word) (ts qs : Limbs) (h : ts.length = qs.length) :
    val (redFn (t0 :: ts) m (q0 :: qs) a).1 =
      val (redFn (t0 :: ts) m (q0 :: qs) a).1.dropLast +
        radix ts.length * (((redFn (t0 :: ts) m (q0 :: qs) a).2.toNat + a.toNat) % limbBase) := by
  simp [redFn, val_append_singleton, shiftLimb, lo64_toNat, ← h]

/-! ## One iteration -/

theorem lo64_add (m n : Nat) : lo64 (m + n) = lo64 m + lo64 n := BitVec.ofNat_add m n

theorem lo64_toNat_mul (a b : Word) : lo64 (a.toNat * b.toNat) = a * b := by
  rw [lo64, BitVec.ofNat_mul]
  simp

/-- The word that `RED` drops is zero when `QINV0` matches `Q[0]` (R155). -/
theorem lo64_quotientDigit (t0 q0 qinv0 : Word) (h : mulLo q0 qinv0 = BitVec.ofNat 64 (2 ^ 64 - 1)) :
    lo64 (t0.toNat + (quotientDigit t0 qinv0).toNat * q0.toNat) = 0 := by
  have hinv : q0 * qinv0 = -1 := by rw [← lo64_toNat_mul]; exact h
  have ht0 : lo64 t0.toNat = t0 := by simp [lo64]
  calc lo64 (t0.toNat + (quotientDigit t0 qinv0).toNat * q0.toNat)
      = t0 + t0 * qinv0 * q0 := by
        rw [lo64_add, lo64_toNat_mul, quotientDigit, mulLo, lo64_toNat_mul, ht0]
    _ = t0 + t0 * (q0 * qinv0) := by ring
    _ = 0 := by rw [hinv]; ring

/-- `RED` with a matching `QINV0` divides exactly by the limb base, if what it divides fits: then the Shift does not overflow
(R155, R157). -/
theorem val_redFn_exact {t q : Limbs} {qinv0 a : Word} (ht : t.length = q.length) (hne : q ≠ [])
    (hinv : mulLo (q.headD 0) qinv0 = BitVec.ofNat 64 (2 ^ 64 - 1))
    (hfit : val t + radix q.length * a.toNat + (quotientDigit (t.headD 0) qinv0).toNat * val q <
      limbBase * radix q.length) :
    limbBase * val (redFn t (quotientDigit (t.headD 0) qinv0) q a).1 =
      val t + radix q.length * a.toNat + (quotientDigit (t.headD 0) qinv0).toNat * val q := by
  obtain ⟨q0, qs, rfl⟩ := List.exists_cons_of_ne_nil hne
  obtain ⟨t0, ts, rfl⟩ := List.exists_cons_of_length_eq_add_one ht
  have hlen : ts.length = qs.length := Nat.succ.inj ht
  simp only [List.headD_cons, List.length_cons, ← hlen, radix_succ] at hinv hfit ⊢
  have hred := val_redFn_before_shift t0 q0 (quotientDigit t0 qinv0) a ts qs hlen
  rw [lo64_quotientDigit t0 q0 qinv0 hinv] at hred
  have hnew := val_redFn t0 q0 (quotientDigit t0 qinv0) a ts qs hlen
  generalize redFn (t0 :: ts) (quotientDigit t0 qinv0) (q0 :: qs) a = r at hred hnew ⊢
  rw [show (0 : Word).toNat = 0 from rfl, Nat.zero_add] at hred
  have hexact : limbBase * (val r.1.dropLast + radix ts.length * (r.2.toNat + a.toNat)) =
      val (t0 :: ts) + limbBase * radix ts.length * a.toNat + (quotientDigit t0 qinv0).toNat * val (q0 :: qs) := by
    linear_combination hred
  rw [← hexact] at hfit ⊢
  have hcarry : r.2.toNat + a.toNat < limbBase := by
    by_contra hge
    have hle := Nat.mul_le_mul_left (radix ts.length) (Nat.le_of_not_lt hge)
    have hlt := Nat.lt_of_mul_lt_mul_left hfit
    rw [Nat.mul_comm _ limbBase] at hle
    omega
  rw [hnew, Nat.mod_eq_of_lt hcarry]

section Loop

variable {x q : Limbs} {qinv0 : Word} (hx : x.length = q.length) (hne : q ≠ [])
  (hinv : mulLo (q.headD 0) qinv0 = BitVec.ofNat 64 (2 ^ 64 - 1)) (hfit : val x + val q ≤ radix q.length)
include hx hne

theorem coreIteration_length {t : Limbs} (ht : t.length = q.length) (yi : Word) :
    (coreIteration x q qinv0 t yi).length = q.length := by
  have hmac : (macFn t x yi).1.length = q.length := by rw [macFn_length, ht, hx, Nat.min_self]
  have hmne : (macFn t x yi).1 ≠ [] := List.ne_nil_of_length_pos (hmac ▸ List.length_pos_of_ne_nil hne)
  rw [coreIteration, redFn_length _ _ _ _ hmne hne, hmac, Nat.min_self]

include hinv hfit

/-- One iteration divides the accumulator, with `x * y[i]` and a multiple of the modulus added, exactly by the limb base, and an
accumulator below `X + Qv` stays below it (R163, R164). -/
theorem val_coreIteration {t : Limbs} (ht : t.length = q.length) (hbound : val t < val x + val q) (yi : Word) :
    val (coreIteration x q qinv0 t yi) < val x + val q ∧
    ∃ m : Nat, limbBase * val (coreIteration x q qinv0 t yi) = val t + val x * yi.toNat + m * val q := by
  have hmac := val_macFn t x yi (ht.trans hx.symm)
  have hmacl : (macFn t x yi).1.length = q.length := by rw [macFn_length, ht, hx, Nat.min_self]
  rw [ht] at hmac
  have hdigit := limb_lt_limbBase (quotientDigit ((macFn t x yi).1.headD 0) qinv0)
  have hsum : val (macFn t x yi).1 + radix q.length * (macFn t x yi).2.toNat +
      (quotientDigit ((macFn t x yi).1.headD 0) qinv0).toNat * val q < limbBase * (val x + val q) := by
    have hxy : val x * yi.toNat + val x ≤ limbBase * val x := by
      rw [← Nat.mul_succ, Nat.mul_comm limbBase]; exact Nat.mul_le_mul_left _ (limb_lt_limbBase yi)
    have hmq := Nat.mul_le_mul_right (val q) (Nat.succ_le_of_lt hdigit)
    rw [Nat.succ_mul] at hmq
    rw [hmac, Nat.mul_add]
    omega
  have hexact := val_redFn_exact hmacl hne hinv (hsum.trans_le (Nat.mul_le_mul_left _ hfit))
  refine ⟨?_, _, (hmac ▸ hexact :)⟩
  rw [← hexact] at hsum
  exact Nat.lt_of_mul_lt_mul_left hsum

/-- The loop keeps the accumulator below `X + Qv` and, with a factor `D` per iteration, congruent to the product so far (R163). -/
theorem val_foldl_coreIteration (y : Limbs) {t : Limbs} (ht : t.length = q.length) (hbound : val t < val x + val q) :
    (y.foldl (coreIteration x q qinv0) t).length = q.length ∧
    val (y.foldl (coreIteration x q qinv0) t) < val x + val q ∧
    radix y.length * val (y.foldl (coreIteration x q qinv0) t) ≡ val t + val x * val y [MOD val q] := by
  induction y generalizing t with
  | nil => exact ⟨ht, hbound, by simp [Nat.ModEq]⟩
  | cons yi ys ih =>
    obtain ⟨hlt, m, hm⟩ := val_coreIteration hx hne hinv hfit ht hbound yi
    obtain ⟨hlen, hltz, hmod⟩ := ih (coreIteration_length hx hne ht yi) hlt
    refine ⟨hlen, hltz, ?_⟩
    rw [List.foldl_cons]
    generalize ys.foldl (coreIteration x q qinv0) (coreIteration x q qinv0 t yi) = z at hmod ⊢
    calc radix (yi :: ys).length * val z
        = limbBase * (radix ys.length * val z) := by rw [List.length_cons, radix_succ, Nat.mul_assoc]
      _ ≡ limbBase * (val (coreIteration x q qinv0 t yi) + val x * val ys) [MOD val q] := hmod.mul_left _
      _ = val t + val x * val (yi :: ys) + m * val q := by rw [val_cons]; linear_combination hm
      _ ≡ val t + val x * val (yi :: ys) [MOD val q] := Nat.add_mul_mod_self_right _ _ _

/-- The almost-reduced value is below `X + Qv` and congruent to `x * y * R⁻¹` (R163, R164, R169). -/
theorem val_coreFn (hpos : 0 < val q) (y : Limbs) :
    (coreFn x y q qinv0).length = q.length ∧ val (coreFn x y q qinv0) < val x + val q ∧
    radix y.length * val (coreFn x y q qinv0) ≡ val x * val y [MOD val q] := by
  have h := val_foldl_coreIteration hx hne hinv hfit y (t := List.replicate q.length 0) List.length_replicate
    (by rw [val_replicate_zero]; omega)
  rwa [val_replicate_zero, Nat.zero_add] at h

end Loop

/-! ## The Reducer -/

theorem subB_toNat (a b : Word) (bin : Bool) :
    (subB a b bin).2.toNat + b.toNat + bin.toNat = a.toNat + limbBase * (subB a b bin).1.toNat := by
  have ha := a.isLt
  have hb := b.isLt
  have hbin : (BitVec.ofNat 64 bin.toNat).toNat = bin.toNat := by cases bin <;> rfl
  have hle : bin.toNat ≤ 1 := bin.toNat_le
  simp only [subB, BitVec.toNat_sub, hbin, limbBase]
  by_cases h : a.toNat < b.toNat + bin.toNat
  · simp only [h, decide_true, Bool.toNat_true]; omega
  · simp only [h, decide_false, Bool.toNat_false]; omega

/-- The subtraction is exact up to the final borrow (R181). -/
theorem val_subChain (t q : Limbs) (b : Bool) (h : t.length = q.length) :
    val (subChain t q b).1 + val q + b.toNat = val t + radix t.length * (subChain t q b).2.toNat := by
  induction t generalizing q b with
  | nil =>
    obtain rfl : q = [] := List.length_eq_zero_iff.mp h.symm
    simp [subChain]
  | cons t0 ts ih => cases q with
    | nil => exact nomatch h
    | cons q0 qs =>
      have hlow := subB_toNat t0 q0 b
      have hrest := ih qs (subB t0 q0 b).1 (Nat.succ.inj h)
      simp only [subChain, val_cons, List.length_cons, radix_succ]
      linear_combination hlow + limbBase * hrest

/-- `FRED` subtracts the modulus once, if it fits (R180). -/
theorem val_fred (t q : Limbs) (h : t.length = q.length) :
    val (fred t q) = if val q ≤ val t then val t - val q else val t := by
  have hsub := val_subChain t q false h
  have hlt := val_lt_radix (subChain t q false).1
  rw [subChain_length, ← h, Nat.min_self] at hlt
  simp only [fred]
  cases hb : (subChain t q false).2 with
  | true =>
    simp only [hb, Bool.toNat_true, Bool.toNat_false] at hsub
    rw [if_pos rfl, if_neg (by omega)]
  | false =>
    simp only [hb, Bool.toNat_false] at hsub
    rw [if_neg Bool.false_ne_true, if_pos (by omega)]
    omega

/-- In contract, one subtraction reduces completely (R183). -/
theorem val_fred_of_lt (t q : Limbs) (h : t.length = q.length) (hlt : val t < 2 * val q) :
    val (fred t q) = val t % val q := by
  rw [val_fred t q h]
  split
  · next hle => rw [Nat.mod_eq_sub_mod hle, Nat.mod_eq_of_lt (by omega)]
  · next hlt => rw [Nat.mod_eq_of_lt (Nat.lt_of_not_le hlt)]

/-! ## The Montgomery product -/

/-- `MontMul` in contract is reduced, and `R` times it is the product modulo `val(Q)` (R46, R158). -/
theorem val_montMul {w : Nat} {x y q : Limbs} {qinv0 : Word} (hw : 1 ≤ w) (hx : x.length = w) (hy : y.length = w)
    (hp : ParamsInDomain w q qinv0) (hlt : val x < val q) :
    val (montMul x y q qinv0) < val q ∧ radix w * val (montMul x y q qinv0) ≡ val x * val y [MOD val q] := by
  obtain ⟨⟨rfl, hodd, -, -, hinv⟩, hdom⟩ := hp
  have hpos : 0 < val q := by omega
  have hfit : val x + val q ≤ radix q.length := by
    have hhalf : 2 * 2 ^ (64 * q.length - 1) = radix q.length := mul_pow_sub_one (by omega) 2
    omega
  obtain ⟨hlen, hbound, hmod⟩ := val_coreFn hx (List.ne_nil_of_length_pos hw) hinv hfit hpos y
  rw [montMul, val_fred_of_lt _ _ hlen (by omega)]
  exact ⟨Nat.mod_lt _ hpos, ((Nat.mod_modEq _ _).mul_left _).trans (hy ▸ hmod)⟩

/-- The radix has an inverse modulo an odd number (R46). -/
theorem exists_radix_inverse (w : Nat) {n : Nat} (hodd : n % 2 = 1) : ∃ r, radix w * r % n = 1 % n := by
  have hcop : Nat.Coprime (radix w) n := (Nat.coprime_two_left.mpr (Nat.odd_iff.mpr hodd)).pow_left _
  rcases Nat.lt_or_ge 1 n with hn | hn
  · obtain ⟨r, -, hr⟩ := Nat.exists_mul_mod_eq_one_of_coprime hcop hn
    exact ⟨r, hr.trans (Nat.mod_eq_of_lt hn).symm⟩
  · obtain rfl : n = 1 := by omega
    exact ⟨0, by simp⟩

/-- A reduced number whose `R`-fold is `p` is `p` times the inverse of `R`. -/
theorem eq_mul_inverse_mod {r rinv z p n : Nat} (hz : z < n) (hmod : r * z ≡ p [MOD n]) (hinv : r * rinv % n = 1 % n) :
    z = p * rinv % n := by
  rw [← Nat.mod_eq_of_lt hz]
  calc z = z * 1 := (Nat.mul_one z).symm
    _ ≡ z * (r * rinv) [MOD n] := (Nat.ModEq.mul_left z hinv).symm
    _ = r * z * rinv := by ring
    _ ≡ p * rinv [MOD n] := hmod.mul_right rinv

end Sys2Proof.Machine
end

-- ==== A whole `MUL` (R46, R91, R145, R146) ====
section
/-! PROOFS. A `MUL` in progress has a number of sequencer steps left and a result it will store. A sequencer step takes one off the
number and keeps the result; an accepted `NOP` or `RDST` keeps both. So the run ends, by induction on the steps left and on the
acceptances the host has ready before the next one, and the arithmetic of the loop gives the guarantee. -/

namespace Sys2Proof.Machine

/-! ## The `MUL` in progress -/

/-- The iterations of the loop of R158 from limb `k` of the second source on, from an accumulator. -/
def State.iterateFrom (s : State) (k : Nat) (acc : Limbs) : Limbs :=
  (((slotAt s s.ys).getD []).drop k).foldl (coreIteration ((slotAt s s.xs).getD []) s.q s.qinv0) acc

/-- The almost-reduced value that the `MUL` in progress is going to hand to `FRED`. -/
def State.almostReduced (s : State) : Limbs :=
  match s.ph with
  | .idle => s.t
  | .multiply => s.iterateFrom s.i s.t
  | .quotient => s.iterateFrom (s.i + 1) (redFn s.t (quotientDigit (s.t.headD 0) s.qinv0) s.q s.a).1
  | .reduce => s.iterateFrom (s.i + 1) (redFn s.t s.m s.q s.a).1
  | .finalReduce => s.t

/-- How many sequencer steps the `MUL` in progress has left (R146). -/
def State.stepsLeft (s : State) : Nat :=
  match s.ph with
  | .idle => 0
  | .multiply => 3 * (s.cfg.w - s.i) + 1
  | .quotient => 3 * (s.cfg.w - s.i)
  | .reduce => 3 * (s.cfg.w - s.i) - 1
  | .finalReduce => 1

/-- Two states of the block with the same element file, modulus, `QINV0` and `MODE`. -/
structure SameStores (s t : State) : Prop where
  e : t.e = s.e
  q : t.q = s.q
  qinv0 : t.qinv0 = s.qinv0
  mode : t.mode = s.mode

/-- The second state goes on with the first one's `MUL`. -/
structure SameMul (s t : State) : Prop extends SameStores s t where
  busy : t.busy = true
  zd : t.zd = s.zd
  almostReduced : t.almostReduced = s.almostReduced

/-- The second state is the first one after its `MUL` has completed. -/
structure MulDone (s t : State) : Prop where
  e : t.e = s.e.set s.zd.toNat (fred s.almostReduced s.q)
  q : t.q = s.q
  qinv0 : t.qinv0 = s.qinv0
  mode : t.mode = s.mode
  busy : t.busy = false
  ph : t.ph = .idle

theorem SameStores.trans {s t u : State} (h : SameStores s t) (h' : SameStores t u) : SameStores s u :=
  ⟨h'.e.trans h.e, h'.q.trans h.q, h'.qinv0.trans h.qinv0, h'.mode.trans h.mode⟩

theorem SameMul.trans {s t u : State} (h : SameMul s t) (h' : SameMul t u) : SameMul s u where
  toSameStores := h.toSameStores.trans h'.toSameStores
  busy := h'.busy
  zd := h'.zd.trans h.zd
  almostReduced := h'.almostReduced.trans h.almostReduced

theorem SameMul.done {s t u : State} (h : SameMul s t) (h' : MulDone t u) : MulDone s u where
  e := by rw [h'.e, h.e, h.zd, h.almostReduced, h.q]
  q := h'.q.trans h.q
  qinv0 := h'.qinv0.trans h.qinv0
  mode := h'.mode.trans h.mode
  busy := h'.busy
  ph := h'.ph

/-- An accepted command that only answers leaves the `MUL` alone. -/
theorem sameMul_answered {s : State} (hb : s.busy = true) (c : Command) (after : List HostInput) (v : Word) :
    SameMul s ((s.quiet.accept c after).respond v) :=
  ⟨⟨rfl, rfl, rfl, rfl⟩, hb, rfl, rfl⟩

theorem sameMul_consume {s : State} (hb : s.busy = true) (rest : List HostInput) : SameMul s (s.quiet.consume rest) :=
  ⟨⟨rfl, rfl, rfl, rfl⟩, hb, rfl, rfl⟩

/-! ## One sequencer step -/

theorem State.iterateFrom_of_limb {s : State} {x : Limbs} {yi : Word} {k : Nat} (hx : slotAt s s.xs = some x)
    (hy : limbAt s s.ys.toNat k = some yi) (acc : Limbs) :
    s.iterateFrom k acc = s.iterateFrom (k + 1) (coreIteration x s.q s.qinv0 acc yi) := by
  cases hslot : s.e[s.ys.toNat]? with
  | none => simp [limbAt, hslot] at hy
  | some y =>
    obtain ⟨hk, rfl⟩ := List.getElem?_eq_some_iff.mp (show y[k]? = some yi by simpa [limbAt, hslot] using hy)
    have hys : slotAt s s.ys = some y := hslot
    simp only [State.iterateFrom, hx, hys, Option.getD_some, List.drop_eq_getElem_cons hk, List.foldl_cons]

theorem State.iterateFrom_width {s : State} (hs : s.Inv) (hb : s.busy = true) (acc : Limbs) :
    s.iterateFrom s.cfg.w acc = acc := by
  obtain ⟨hsh, -, -, hrun⟩ := hs
  obtain ⟨-, -, -, hyr⟩ := hrun hb
  obtain ⟨y, hy, hyl⟩ := hsh.slotAt_isSome (of_decide_eq_true hyr)
  rw [State.iterateFrom, hy, Option.getD_some, List.drop_eq_nil_of_le (le_of_eq hyl), List.foldl_nil]

/-- The move out of `REDUCE`: on to the next limb, or, after the last, to `FINALREDUCE`. -/
theorem afterReduce_sameMul {s u : State} (hs : s.Inv) (hb : s.busy = true) (hp : s.ph = .reduce)
    (hu : u = { s with t := (redFn s.t s.m s.q s.a).1, c := (redFn s.t s.m s.q s.a).2 }) :
    SameMul s u.afterReduce ∧ u.afterReduce.stepsLeft + 1 = s.stepsLeft ∧ u.afterReduce.host = s.host := by
  have hi : s.i < s.cfg.w := hs.i_lt
  have hpending : s.almostReduced = s.iterateFrom (s.i + 1) (redFn s.t s.m s.q s.a).1 := by
    simp only [State.almostReduced, hp]
  have hleft : s.stepsLeft = 3 * (s.cfg.w - s.i) - 1 := by simp only [State.stepsLeft, hp]
  by_cases hl : s.i + 1 = s.cfg.w
  · rw [State.afterReduce_of_last (by rw [hu]; exact hl), hu]
    refine ⟨⟨⟨rfl, rfl, rfl, rfl⟩, hb, rfl, ?_⟩, ?_, rfl⟩
    · rw [hpending, hl, State.iterateFrom_width hs hb]
      rfl
    · show 1 + 1 = s.stepsLeft
      omega
  · rw [State.afterReduce_of_more (by rw [hu]; exact hl), hu]
    refine ⟨⟨⟨rfl, rfl, rfl, rfl⟩, hb, rfl, hpending.symm⟩, ?_, rfl⟩
    show 3 * (s.cfg.w - (s.i + 1)) + 1 + 1 = s.stepsLeft
    omega

theorem runAction_sequencer {s : State} :
    (s.ph = .multiply → runAction (sequencerAction s) = exec .mac s) ∧
    (s.ph = .quotient → runAction (sequencerAction s) = exec .quot s) ∧
    (s.ph = .reduce → runAction (sequencerAction s) = exec .red s) ∧
    (s.ph = .finalReduce → runAction (sequencerAction s) = exec .fred s) := by
  refine ⟨?_, ?_, ?_, ?_⟩ <;> intro hp <;> simp only [sequencerAction, hp, runAction]

/-- A sequencer step goes on with the `MUL`, with one step less to do, or completes it. -/
theorem sequencer_step {s : State} (hs : s.Inv) (hb : s.busy = true) :
    ∃ t, runAction (sequencerAction s) = .next t ∧
      ((SameMul s t ∧ t.stepsLeft + 1 = s.stepsLeft ∧ t.host = s.host) ∨ (MulDone s t ∧ s.stepsLeft = 1)) := by
  have hi : s.i < s.cfg.w := hs.i_lt
  obtain ⟨hmac, hquot, hred, hfred⟩ := runAction_sequencer (s := s)
  cases hp : s.ph with
  | idle => exact absurd hp (hs.ph_ne_idle hb)
  | multiply =>
    obtain ⟨x, yi, hx, -, hy, hexec⟩ := exec_mac_of_inv hs hp
    refine ⟨_, (hmac hp).trans hexec, .inl ⟨⟨⟨rfl, rfl, rfl, rfl⟩, hb, rfl, ?_⟩, ?_, rfl⟩⟩
    · simp only [State.almostReduced, hp]
      exact (State.iterateFrom_of_limb hx hy s.t).symm
    · simp only [State.stepsLeft, hp]
  | quotient =>
    refine ⟨_, (hquot hp).trans (exec_quot_of_inv hs hp), .inl ⟨⟨⟨rfl, rfl, rfl, rfl⟩, hb, rfl, ?_⟩, ?_, rfl⟩⟩
    · simp only [State.almostReduced, hp]
      rfl
    · simp only [State.stepsLeft, hp]
      omega
  | reduce => exact ⟨_, (hred hp).trans (exec_red_of_inv hs hp), .inl (afterReduce_sameMul hs hb hp rfl)⟩
  | finalReduce =>
    refine ⟨_, (hfred hp).trans (exec_fred_of_inv hs hp), .inr ⟨⟨?_, rfl, rfl, rfl, rfl, rfl⟩, ?_⟩⟩
    · simp only [State.almostReduced, hp]
    · simp only [State.stepsLeft, hp]

theorem stepsLeft_pos {s : State} (hs : s.Inv) (hb : s.busy = true) : 0 < s.stepsLeft := by
  obtain ⟨t, -, ⟨-, h, -⟩ | ⟨-, h⟩⟩ := sequencer_step hs hb <;> omega

/-! ## What the host does meanwhile -/

/-- How many acceptances come before the next sequencer step at most: a waiting host polls once. -/
def acceptancesAhead : List HostInput → Nat
  | .command _ :: rest => acceptancesAhead rest + 1
  | .wait _ 0 :: _ => 1
  | _ => 0

section Host

variable {s : State} (hb : s.busy = true)
include hb

/-- A busy block accepts `NOP` and `RDST` only, which answer and do nothing else (R91). -/
theorem Accepts.step_of_busy {c : Command} {after : List HostInput} (h : Accepts s c after) :
    ∃ v, step s = .next ((s.quiet.accept c after).respond v) ∧ (Machine.action s).isSequencerStep = false := by
  have hw : acceptedWhileBusy c.cmd = true := h.ready.resolve_left (by simp [hb])
  rw [step, h.action]
  rcases (acceptedWhileBusy_eq_true c.cmd).mp hw with hd | hd <;> simp only [acceptedAction, hd]
  · exact ⟨0, rfl, rfl⟩
  · exact ⟨statusWord _, rfl, rfl⟩

theorem Accepts.letsMulFinish {c : Command} {after : List HostInput} (h : Accepts s c after) {n : Nat}
    (hl : letsMulFinish (n + 1) s.host = true) :
    Machine.letsMulFinish (n + 1) after = true ∧ acceptancesAhead after < acceptancesAhead s.host := by
  have hw : acceptedWhileBusy c.cmd = true := h.ready.resolve_left (by simp [hb])
  rcases h with ⟨hh, -⟩ | ⟨gap, rest, hh, -, rfl⟩
  · rw [hh, Machine.letsMulFinish, hw] at hl
    rw [hh]
    exact ⟨hl, Nat.lt_succ_self _⟩
  · rw [hh, afterPoll_statusWord, if_pos hb]
    exact ⟨rfl, Nat.one_pos⟩

theorem Passes.letsMulFinish {rest : List HostInput} (h : Passes s rest) {n : Nat}
    (hl : letsMulFinish (n + 1) s.host = true) : Machine.letsMulFinish n rest = true := by
  rcases h with ⟨-, rfl⟩ | hh | ⟨gap, left, after, hh, rfl⟩ | ⟨c, after, hh, hr, rfl⟩
  · cases n <;> rfl
  · rwa [hh, Machine.letsMulFinish] at hl
  · cases n <;> rfl
  · have hw : acceptedWhileBusy c.cmd = false := by
      simpa [cmdReady, resetAsserted_command hh, hb] using hr
    cases n with
    | zero => rfl
    | succ n => rw [Machine.letsMulFinish, hw]; rfl

end Host

/-! ## The run -/

theorem run_succ_of_step {s t : State} (h : step s = .next t) (n : Nat) :
    Host.Core.run Sys2Proof.core (n + 1) s = Host.Core.run Sys2Proof.core n t := by
  have hcore : Sys2Proof.core.step s = .next t := h
  simp only [Host.Core.run, hcore]

theorem sequencerSteps_succ_of_step {s t : State} (h : step s = .next t) (n : Nat) :
    sequencerSteps (n + 1) s = (if (action s).isSequencerStep then 1 else 0) + sequencerSteps n t := by
  rw [sequencerSteps, h]

/-- The run from a busy state completes its `MUL` after `d` sequencer steps, busy and with the stores as they were before. -/
def Completes (d : Nat) (s : State) : Prop :=
  ∃ n u,
    (∀ k, k < n → ∃ v : State, Host.Core.run Sys2Proof.core k s = .next v ∧ v.busy = true ∧ SameStores s v) ∧
    Host.Core.run Sys2Proof.core n s = .next u ∧ sequencerSteps n s = d ∧ MulDone s u

theorem Completes.of_step {s t : State} {d : Nat} (hb : s.busy = true) (hstep : step s = .next t) (hm : SameMul s t)
    (h : Completes d t) : Completes ((if (action s).isSequencerStep then 1 else 0) + d) s := by
  obtain ⟨n, u, hbefore, hrun, hcount, hdone⟩ := h
  refine ⟨n + 1, u, fun k hk => ?_, ?_, ?_, hm.done hdone⟩
  · cases k with
    | zero => exact ⟨s, rfl, hb, ⟨rfl, rfl, rfl, rfl⟩⟩
    | succ k =>
      obtain ⟨v, hv, hvb, hvs⟩ := hbefore k (Nat.lt_of_succ_lt_succ hk)
      exact ⟨v, (run_succ_of_step hstep k).trans hv, hvb, hm.toSameStores.trans hvs⟩
  · rw [run_succ_of_step hstep, hrun]
  · rw [sequencerSteps_succ_of_step hstep, hcount]

theorem Completes.of_last {s u : State} (hb : s.busy = true) (hstep : step s = .next u)
    (hseq : (action s).isSequencerStep = true) (h : MulDone s u) : Completes 1 s := by
  refine ⟨1, u, fun k hk => ?_, ?_, ?_, h⟩
  · obtain rfl : k = 0 := Nat.lt_one_iff.mp hk
    exact ⟨s, rfl, hb, ⟨rfl, rfl, rfl, rfl⟩⟩
  · rw [run_succ_of_step hstep]; rfl
  · rw [sequencerSteps_succ_of_step hstep, if_pos hseq]; rfl

/-- A step that accepts nothing moves the sequencer: it completes the `MUL`, or leaves a state from which the run completes it. -/
theorem completes_of_passes {s : State} {rest : List HostInput} {d : Nat} (hs : s.Inv) (hb : s.busy = true)
    (hd : s.stepsLeft = d + 1) (hp : Passes s rest)
    (ih : ∀ t : State, t.Inv → t.busy = true → t.stepsLeft = d → t.host = rest → Completes d t) :
    Completes (d + 1) s := by
  have hseq : (action s).isSequencerStep = true := by
    rw [hp.action]
    exact (isSequencerStep_sequencerAction _).mpr (hs.ph_ne_idle hb)
  obtain ⟨t, ht, hcases⟩ := sequencer_step (s := s.quiet.consume rest) hs hb
  have hstep : step s = .next t := by rw [step, hp.action, ht]
  rcases hcases with ⟨hmul, hless, hhost⟩ | ⟨hdone, hlast⟩
  · have htd : t.stepsLeft = d := Nat.succ.inj (hless.trans hd)
    have hrest := ih t (stepKeepsTheInvariant s t hs hstep).1 hmul.busy htd hhost
    have hall := hrest.of_step hb hstep ((sameMul_consume hb rest).trans hmul)
    rwa [if_pos hseq, Nat.add_comm] at hall
  · obtain rfl : d = 0 := Nat.succ.inj (hd.symm.trans hlast)
    exact .of_last hb hstep hseq ((sameMul_consume hb rest).done hdone)

/-- Every `MUL` that no reset abandons completes after the sequencer steps it has left (R146, R232). -/
theorem completes_of_busy (d : Nat) (s : State) (hs : s.Inv) (hb : s.busy = true) (hd : s.stepsLeft = d)
    (hl : letsMulFinish d s.host = true) : Completes d s := by
  induction d generalizing s with
  | zero => exact absurd hd (stepsLeft_pos hs hb).ne'
  | succ d ihd =>
    induction hn : acceptancesAhead s.host using Nat.strong_induction_on generalizing s with
    | _ n ihn =>
      rcases step_trichotomy s with ⟨p, rest, hh⟩ | ⟨c, after, ha⟩ | ⟨rest, hp⟩
      · rw [hh] at hl
        exact nomatch hl
      · obtain ⟨v, hstep, hseq⟩ := ha.step_of_busy hb
        obtain ⟨hl', hfewer⟩ := ha.letsMulFinish hb hl
        have hrest := ihn _ (hn ▸ hfewer) ((s.quiet.accept c after).respond v) hs hb hd hl' rfl
        have hall := hrest.of_step hb hstep (sameMul_answered hb c after v)
        rwa [hseq, if_neg Bool.false_ne_true, Nat.zero_add] at hall
      · exact completes_of_passes hs hb hd hp fun t ht htb htd hth =>
          ihd t ht htb htd (hth ▸ hp.letsMulFinish hb hl)

/-! ## The guarantee -/

theorem exec_mul_started {s : State} {zd xs ys : Index} (hb : s.busy = false) (hm : s.mode = .run)
    (hz : zd.toNat < s.cfg.ne) (hx : xs.toNat < s.cfg.ne) (hy : ys.toNat < s.cfg.ne) :
    exec (.mul zd xs ys) s = .next ((s.start zd xs ys).respond 0) := by
  simp [exec, execMul, hb, hm, slotInRange, hz, hx, hy]

/-- A `MUL` that has just started is going to compute `Core` of its sources (R158). -/
theorem almostReduced_start {s : State} {zd xs ys : Index} {x y : Limbs} (hq : s.q.length = s.cfg.w)
    (hx : slotAt s xs = some x) (hy : slotAt s ys = some y) :
    ((s.start zd xs ys).respond 0).almostReduced = coreFn x y s.q s.qinv0 := by
  show ((slotAt s ys).getD []).foldl (coreIteration ((slotAt s xs).getD []) s.q s.qinv0)
    (List.replicate s.cfg.w 0) = _
  rw [hx, hy, coreFn, hq, Option.getD_some, Option.getD_some]

/-- Settles O38: the run completes, and in contract `MontMul` is the Montgomery product. -/
theorem mulComputesTheMontgomeryProduct : Obligations.MulComputesTheMontgomeryProduct := by
  intro s zd xs ys x y hs hl hb hm hz hx hy hsx hsy hp hlt
  have hinv : ((s.start zd xs ys).respond 0).Inv :=
    (start_inv hs hm (decide_eq_true hz) (decide_eq_true hx) (decide_eq_true hy)).respond 0
  obtain ⟨n, u, hbefore, hrun, -, hdone⟩ := completes_of_busy _ _ hinv rfl rfl hl
  obtain ⟨⟨⟨hw, -⟩, -⟩, helen, heslot, hqlen, -⟩ := hs.1
  have hxl : x.length = s.cfg.w := heslot x (List.mem_of_getElem? hsx)
  have hyl : y.length = s.cfg.w := heslot y (List.mem_of_getElem? hsy)
  obtain ⟨hzlt, hmod⟩ := val_montMul hw hxl hyl hp hlt
  obtain ⟨⟨-, hodd, -⟩, -⟩ := id hp
  have hslot : slotAt u zd = some (montMul x y s.q s.qinv0) := by
    show u.e[zd.toNat]? = _
    rw [hdone.e, almostReduced_start hqlen hsx hsy]
    exact List.getElem?_set_self (helen ▸ hz)
  refine ⟨n, _, u, _, exec_mul_started hb hm hz hx hy, fun k hk => ?_, hrun, hdone.busy, hslot, hzlt,
    exists_radix_inverse _ hodd, fun rinv hr => eq_mul_inverse_mod hzlt hmod hr⟩
  obtain ⟨v, hv, hvb, -⟩ := hbefore k hk
  exact ⟨v, hv, hvb⟩

end Sys2Proof.Machine
end

-- ==== Reading and writing a storage word (R65, R68) ====
section
/-! PROOFS. A read answers and does nothing else; a write decides what the next read of its location answers, and the same write
again decides the same. The commands put these two operations under guards that neither of them changes. -/

namespace Sys2Proof.Machine

/-! ## A location -/

@[simp] theorem readLoc_respond (s : State) (v : Word) (l : Loc) : readLoc (s.respond v) l = readLoc s l := by
  cases l <;> rfl

theorem writeLoc_respond {s t : State} {l : Loc} {v : Word} (h : writeLoc s l v = some t) (r : Word) :
    writeLoc (s.respond r) l v = some (t.respond r) := by
  cases l with
  | e | q =>
    obtain ⟨w, hw, rfl⟩ := Option.map_eq_some_iff.mp h
    exact Option.map_eq_some_iff.mpr ⟨w, hw, rfl⟩
  | qinv0 => exact congrArg _ (congrArg (State.respond · r) (Option.some.inj h))
  | status => exact nomatch h

/-- A location that has been written reads as what was written (R68). -/
theorem readLoc_of_writeLoc {s t : State} {l : Loc} {v : Word} (h : writeLoc s l v = some t) : readLoc t l = some v := by
  cases l with
  | e idx k =>
    obtain ⟨w, hw, rfl⟩ := Option.map_eq_some_iff.mp h
    exact (limbAt_modify s _ idx k v (Option.isSome_of_eq_some hw) idx k).trans (if_pos ⟨rfl, rfl⟩)
  | q k =>
    obtain ⟨w, hw, rfl⟩ := Option.map_eq_some_iff.mp h
    exact List.getElem?_set_self (List.getElem?_eq_some_iff.mp hw).1
  | qinv0 =>
    obtain rfl := Option.some.inj h
    rfl
  | status => exact nomatch h

/-- Writing the same word to the same location again changes nothing (R65). -/
theorem writeLoc_again {s t : State} {l : Loc} {v : Word} (h : writeLoc s l v = some t) : writeLoc t l v = some t := by
  have hr : readLoc t l = some v := readLoc_of_writeLoc h
  cases l with
  | e idx k =>
    refine Option.map_eq_some_iff.mpr ⟨v, hr, ?_⟩
    rw [writeLoc_e h]
    simp only [List.modify_modify_eq, Function.comp_def, List.set_set]
  | q k =>
    refine Option.map_eq_some_iff.mpr ⟨v, hr, ?_⟩
    rw [writeLoc_q h]
    simp only [List.set_set]
  | qinv0 =>
    obtain rfl := Option.some.inj h
    rfl
  | status => exact nomatch h

/-! ## Operations that may be repeated -/

/-- Two states with the same parameters, `MODE` and `BUSY`: what the guards of the reads and writes look at. -/
structure SameControl (s t : State) : Prop where
  cfg : t.cfg = s.cfg
  mode : t.mode = s.mode
  busy : t.busy = s.busy

/-- Done again, the operation leaves the state that it left the first time; and it keeps its own guards. -/
def Repeatable (f : State → Result) : Prop :=
  ∀ s t, f s = .next t → SameControl s t ∧ f t = .next t

/-- A write keeps what guards look at, and the data word it was given. -/
theorem writeLoc_frame {s t : State} {l : Loc} {v : Word} (h : writeLoc s l v = some t) :
    SameControl s t ∧ t.wdata = s.wdata := by
  cases l with
  | e idx k => rw [writeLoc_e h]; exact ⟨⟨rfl, rfl, rfl⟩, rfl⟩
  | q k => rw [writeLoc_q h]; exact ⟨⟨rfl, rfl, rfl⟩, rfl⟩
  | qinv0 => rw [← Option.some.inj h]; exact ⟨⟨rfl, rfl, rfl⟩, rfl⟩
  | status => exact nomatch h

theorem SameControl.respond {s t : State} (h : SameControl s t) (v : Word) : SameControl s (t.respond v) :=
  ⟨h.cfg, h.mode, h.busy⟩

theorem repeatable_ignore : Repeatable ignore := by
  rintro s _ ⟨⟩
  exact ⟨⟨rfl, rfl, rfl⟩, rfl⟩

theorem loadWord_of_readLoc {s : State} {l : Loc} {v : Word} (h : readLoc s l = some v) :
    loadWord l s = .next (s.respond v) := by
  simp [loadWord, h]

theorem storeWord_of_writeLoc {s t : State} {l : Loc} (h : writeLoc s l s.wdata = some t) :
    storeWord l s = .next (t.respond 0) := by
  simp [storeWord, h]

theorem repeatable_loadWord (l : Loc) : Repeatable (loadWord l) := by
  intro s t h
  rcases loadWord_cases l s with ⟨v, hv, hs⟩ | ⟨-, hf⟩
  · obtain rfl : s.respond v = t := by simpa [hs] using h
    exact ⟨⟨rfl, rfl, rfl⟩, loadWord_of_readLoc ((readLoc_respond s v l).trans hv)⟩
  · simp [hf] at h

theorem repeatable_storeWord (l : Loc) : Repeatable (storeWord l) := by
  intro s t h
  obtain ⟨u, hu, rfl⟩ := storeWord_next h
  obtain ⟨hc, hwdata⟩ := writeLoc_frame hu
  have hagain : writeLoc (u.respond 0) l (u.respond 0).wdata = some (u.respond 0) := by
    rw [State.respond_wdata, hwdata]
    exact writeLoc_respond (writeLoc_again hu) 0
  exact ⟨hc.respond 0, storeWord_of_writeLoc (t := u.respond 0) hagain⟩

/-- A guarded operation is done again, or ignored again. -/
theorem Repeatable.guarded {f : State → Result} (hf : Repeatable f) {p : State → Prop} [DecidablePred p]
    (hp : ∀ s t, SameControl s t → (p t ↔ p s)) : Repeatable fun s => if p s then f s else ignore s := by
  intro s t h
  by_cases hs : p s
  · obtain ⟨hc, ht⟩ := hf s t (by simpa [hs] using h)
    exact ⟨hc, (if_pos ((hp s t hc).mpr hs)).trans ht⟩
  · obtain ⟨hc, ht⟩ := repeatable_ignore s t (by simpa [hs] using h)
    exact ⟨hc, (if_neg fun hpt => hs ((hp s t hc).mp hpt)).trans ht⟩

/-- A command is held again, or done again. -/
theorem Repeatable.whenAccepted {f : State → Result} (hf : Repeatable f) :
    Repeatable fun s => Machine.whenAccepted s f := by
  intro s t h
  rcases whenAccepted_cases s f with ⟨hb, he⟩ | ⟨hb, he⟩
  · obtain rfl : s = t := by simpa [he] using h
    exact ⟨⟨rfl, rfl, rfl⟩, he⟩
  · obtain ⟨hc, ht⟩ := hf s t (he ▸ h)
    exact ⟨hc, (whenAccepted_free t f (hc.busy.trans hb)).trans ht⟩

theorem SameControl.slotInRange_eq {s t : State} (h : SameControl s t) (idx : Index) :
    slotInRange t idx = slotInRange s idx := by
  rw [slotInRange, h.cfg, slotInRange]

theorem SameControl.limbInRange_eq {s t : State} (h : SameControl s t) (k : Index) :
    limbInRange t k = limbInRange s k := by
  rw [limbInRange, h.cfg, limbInRange]

theorem repeatable_rdl (idx k : Index) : Repeatable (exec (.rdl idx k)) :=
  ((repeatable_loadWord _).guarded fun _ _ h => by rw [h.slotInRange_eq, h.limbInRange_eq]).whenAccepted

theorem repeatable_wrl (idx k : Index) : Repeatable (exec (.wrl idx k)) :=
  ((repeatable_storeWord _).guarded fun _ _ h => by rw [h.slotInRange_eq, h.limbInRange_eq]).whenAccepted

theorem repeatable_rdq (k : Index) : Repeatable (exec (.rdq k)) :=
  ((repeatable_loadWord _).guarded fun _ _ h => by rw [h.limbInRange_eq]).whenAccepted

theorem repeatable_wrq (k : Index) : Repeatable (exec (.wrq k)) :=
  ((repeatable_storeWord _).guarded fun _ _ h => by rw [h.mode, h.limbInRange_eq]).whenAccepted

theorem repeatable_rdqi : Repeatable (exec .rdqi) := (repeatable_loadWord _).whenAccepted

theorem repeatable_wrqi : Repeatable (exec .wrqi) :=
  ((repeatable_storeWord _).guarded fun _ _ h => by rw [h.mode]).whenAccepted

theorem repeatable_rdst : Repeatable (exec .rdst) := repeatable_loadWord .status

/-- A read has no effect but its response (R65). -/
theorem Effect.port_of_read {i : Instr} {s t : State} (h : Effect i s t)
    (hi : (∃ idx k, i = .rdl idx k) ∨ (∃ k, i = .rdq k) ∨ i = .rdqi ∨ i = .rdst) :
    t = { s with rspValid := t.rspValid, rdata := t.rdata } := by
  cases h with
  | held | otherPhase | answered => rfl
  | _ => simp at hi

/-- Settles O42: a read and a write are repeatable operations under guards that they keep. -/
theorem readsAndWritesMayBeRepeated : Obligations.ReadsAndWritesMayBeRepeated := by
  intro i s t h
  refine ⟨fun hi => ⟨(exec_effect h).port_of_read hi, ?_⟩, fun hi => ?_⟩
  · rcases hi with ⟨idx, k, rfl⟩ | ⟨k, rfl⟩ | rfl | rfl
    · exact (repeatable_rdl idx k s t h).2
    · exact (repeatable_rdq k s t h).2
    · exact (repeatable_rdqi s t h).2
    · exact (repeatable_rdst s t h).2
  · rcases hi with ⟨idx, k, rfl⟩ | ⟨k, rfl⟩ | rfl
    · exact (repeatable_wrl idx k s t h).2
    · exact (repeatable_wrq k s t h).2
    · exact (repeatable_wrqi s t h).2

/-! ## Read after write -/

/-- Where there is a word to write, the write succeeds and the next read of it answers the word written (R68). -/
theorem loadWord_after_storeWord {s : State} {l : Loc} {v : Word} (h : readLoc s l = some v) (hl : l ≠ .status) :
    ∃ t, storeWord l s = .next t ∧ SameControl s t ∧ loadWord l t = .next { t with rdata := s.wdata } := by
  obtain ⟨u, hu⟩ := writeLoc_isSome_of_readLoc h hl s.wdata
  obtain ⟨hc, -⟩ := writeLoc_frame hu
  exact ⟨u.respond 0, storeWord_of_writeLoc hu, hc.respond 0,
    loadWord_of_readLoc ((readLoc_respond u 0 l).trans (readLoc_of_writeLoc hu))⟩

section Free

variable {s : State} (hb : s.busy = false)
include hb

theorem exec_wrl_of_free {idx k : Index} (hi : slotInRange s idx = true) (hk : limbInRange s k = true) :
    exec (.wrl idx k) s = storeWord (elementLoc idx k) s := by
  simp [exec, execWrl, hb, hi, hk]

theorem exec_rdl_of_free {idx k : Index} (hi : slotInRange s idx = true) (hk : limbInRange s k = true) :
    exec (.rdl idx k) s = loadWord (elementLoc idx k) s := by
  simp [exec, execRdl, hb, hi, hk]

theorem exec_wrq_of_free {k : Index} (hm : s.mode = .setup) (hk : limbInRange s k = true) :
    exec (.wrq k) s = storeWord (modulusLoc k) s := by
  simp [exec, execWrq, hb, hm, hk]

theorem exec_rdq_of_free {k : Index} (hk : limbInRange s k = true) : exec (.rdq k) s = loadWord (modulusLoc k) s := by
  simp [exec, execRdq, hb, hk]

theorem exec_wrqi_of_free (hm : s.mode = .setup) : exec .wrqi s = storeWord .qinv0 s := by
  simp [exec, execWrqi, hb, hm]

theorem exec_rdqi_of_free : exec .rdqi s = loadWord .qinv0 s := by
  simp [exec, execRdqi, hb]

end Free

/-- Settles O43: each pair of commands is a write and a read of one location, which the state holds. -/
theorem readReturnsTheLatestWrite : Obligations.ReadReturnsTheLatestWrite := by
  intro s idx k hs hb
  refine ⟨fun hi hk => ?_, fun hm hk => ?_, fun hm => ?_⟩
  · have hir : slotInRange s idx = true := decide_eq_true hi
    have hkr : limbInRange s k = true := decide_eq_true hk
    obtain ⟨v, hv⟩ := hs.1.readLoc_element hir hkr
    obtain ⟨t, hstore, hc, hload⟩ := loadWord_after_storeWord hv nofun
    exact ⟨t, (exec_wrl_of_free hb hir hkr).trans hstore, (exec_rdl_of_free (hc.busy.trans hb)
      ((hc.slotInRange_eq idx).trans hir) ((hc.limbInRange_eq k).trans hkr)).trans hload⟩
  · have hkr : limbInRange s k = true := decide_eq_true hk
    obtain ⟨v, hv⟩ := hs.1.readLoc_modulus hkr
    obtain ⟨t, hstore, hc, hload⟩ := loadWord_after_storeWord hv nofun
    exact ⟨t, (exec_wrq_of_free hb hm hkr).trans hstore,
      (exec_rdq_of_free (hc.busy.trans hb) ((hc.limbInRange_eq k).trans hkr)).trans hload⟩
  · obtain ⟨t, hstore, hc, hload⟩ := loadWord_after_storeWord (s := s) (l := .qinv0) rfl nofun
    exact ⟨t, (exec_wrqi_of_free hb hm).trans hstore, (exec_rdqi_of_free (hc.busy.trans hb)).trans hload⟩

end Sys2Proof.Machine
end

-- ==== Two `MUL`s in lockstep (R77) ====
section
/-! PROOFS. How long a `MUL` takes depends on the steps it has left and on the host's inputs, not on its slots: two blocks that
agree in these take each step together, and become free at the same step. -/

namespace Sys2Proof.Machine

/-- Two sound blocks, both free, or both busy with the same steps left and the same host inputs. -/
structure InLockstep (s s' : State) : Prop where
  inv : s.Inv
  inv' : s'.Inv
  busy : s'.busy = s.busy
  running : s.busy = true → s'.stepsLeft = s.stepsLeft ∧ s'.host = s.host

theorem InLockstep.symm {s s' : State} (h : InLockstep s s') : InLockstep s' s where
  inv := h.inv'
  inv' := h.inv
  busy := h.busy.symm
  running hb := (h.running (h.busy.symm.trans hb)).imp Eq.symm Eq.symm

/-- Where nothing is accepted, a `MUL` is complete if one step was left, and has one step less to do otherwise. -/
theorem Passes.step_of_busy {s : State} {rest : List HostInput} (hp : Passes s rest) (hs : s.Inv) (hb : s.busy = true) :
    ∃ t, step s = .next t ∧ t.busy = decide (s.stepsLeft ≠ 1) ∧
      (t.busy = true → t.stepsLeft + 1 = s.stepsLeft ∧ t.host = rest) := by
  obtain ⟨t, ht, hcases⟩ := sequencer_step (s := s.quiet.consume rest) hs hb
  have hstep : step s = .next t := by rw [step, hp.action, ht]
  refine ⟨t, hstep, ?_⟩
  rcases hcases with ⟨hmul, hless, hhost⟩ | ⟨hdone, hlast⟩
  · have hleft : t.stepsLeft + 1 = s.stepsLeft := hless
    have hpos : 0 < t.stepsLeft := stepsLeft_pos (stepKeepsTheInvariant s t hs hstep).1 hmul.busy
    exact ⟨hmul.busy.trans (decide_eq_true (by omega)).symm, fun _ => ⟨hleft, hhost⟩⟩
  · have hleft : s.stepsLeft = 1 := hlast
    rw [hdone.busy]
    exact ⟨(decide_eq_false (not_not_intro hleft)).symm, nofun⟩

section Agreement

variable {s s' : State} (hh : s'.host = s.host) (hb : s'.busy = s.busy)
include hh hb

theorem Accepts.of_same_inputs (hm : s'.mode = s.mode) {c : Command} {after : List HostInput} (h : Accepts s c after) :
    Accepts s' c after := by
  simpa only [Accepts, cmdReady, resetAsserted, statusWord, hh, hb, hm] using h

theorem Passes.of_same_inputs {rest : List HostInput} (h : Passes s rest) : Passes s' rest := by
  simpa only [Passes, cmdReady, resetAsserted, hh, hb] using h

end Agreement

/-- "`BUSY = 1` never coincides with `MODE = SETUP`" (R129). -/
theorem State.Inv.mode_of_busy {s : State} (hs : s.Inv) (hb : s.busy = true) : s.mode = .run := by
  obtain ⟨-, -, -, hrun⟩ := hs
  exact (hrun hb).1

/-- Two busy blocks in lockstep take the next step together. -/
theorem InLockstep.step {s s' : State} (h : InLockstep s s') (hb : s.busy = true) :
    ∃ t t', Machine.step s = .next t ∧ Machine.step s' = .next t' ∧ InLockstep t t' := by
  obtain ⟨hs, hs', hbusy, hrunning⟩ := h
  obtain ⟨hleft, hhost⟩ := hrunning hb
  have hb' : s'.busy = true := hbusy.trans hb
  rcases step_trichotomy s with ⟨p, rest, hr⟩ | ⟨c, after, ha⟩ | ⟨rest, hp⟩
  · have hstep := step_of_reset hr
    have hstep' := step_of_reset (hhost.trans hr)
    exact ⟨_, _, hstep, hstep', (stepKeepsTheInvariant _ _ hs hstep).1, (stepKeepsTheInvariant _ _ hs' hstep').1,
      rfl, nofun⟩
  · have hmode : s'.mode = s.mode := (hs'.mode_of_busy hb').trans (hs.mode_of_busy hb).symm
    obtain ⟨v, hstep, -⟩ := ha.step_of_busy hb
    obtain ⟨v', hstep', -⟩ := (ha.of_same_inputs hhost hbusy hmode).step_of_busy hb'
    exact ⟨_, _, hstep, hstep', hs, hs', hbusy, fun _ => ⟨hleft, rfl⟩⟩
  · obtain ⟨t, hstep, htb, hnext⟩ := hp.step_of_busy hs hb
    obtain ⟨t', hstep', htb', hnext'⟩ := (hp.of_same_inputs hhost hbusy).step_of_busy hs' hb'
    have hsame : t'.busy = t.busy := by rw [htb, htb', hleft]
    refine ⟨t, t', hstep, hstep', (stepKeepsTheInvariant _ _ hs hstep).1, (stepKeepsTheInvariant _ _ hs' hstep').1,
      hsame, fun ht => ?_⟩
    obtain ⟨hless, hrest⟩ := hnext ht
    obtain ⟨hless', hrest'⟩ := hnext' (hsame.trans ht)
    exact ⟨Nat.succ.inj (hless'.trans (hleft.trans hless.symm)), hrest'.trans hrest.symm⟩

theorem busyThroughout_succ {s t : State} (h : step s = .next t) (n : Nat) :
    busyThroughout (n + 1) s ↔ s.busy = true ∧ busyThroughout n t := by
  constructor
  · intro hall
    obtain ⟨v, hv, hvb⟩ := hall 0 n.succ_pos
    obtain rfl : s = v := Host.Outcome.next.inj hv
    refine ⟨hvb, fun k hk => ?_⟩
    rw [← run_succ_of_step h]
    exact hall (k + 1) (Nat.succ_lt_succ hk)
  · rintro ⟨hb, hall⟩ (_ | k) hk
    · exact ⟨s, rfl, hb⟩
    · rw [run_succ_of_step h]
      exact hall k (Nat.lt_of_succ_lt_succ hk)

theorem InLockstep.busyThroughout {s s' : State} (h : InLockstep s s') {n : Nat} (hn : busyThroughout n s) :
    Machine.busyThroughout n s' := by
  induction n generalizing s s' with
  | zero => exact fun k hk => absurd hk k.not_lt_zero
  | succ n ih =>
    obtain ⟨v, hv, hb⟩ := hn 0 n.succ_pos
    obtain rfl : s = v := Host.Outcome.next.inj hv
    obtain ⟨t, t', hstep, hstep', hnext⟩ := h.step hb
    exact (busyThroughout_succ hstep' n).mpr
      ⟨h.busy.trans hb, ih hnext ((busyThroughout_succ hstep n).mp hn).2⟩

/-- A run that is busy for `n` steps is not free before. -/
theorem busyThroughout.le_of_free {s u : State} {n k : Nat} (h : busyThroughout n s)
    (hu : Host.Core.run Sys2Proof.core k s = .next u) (hf : u.busy = false) : n ≤ k := by
  by_contra hk
  obtain ⟨v, hv, hb⟩ := h k (Nat.lt_of_not_le hk)
  obtain rfl : u = v := Host.Outcome.next.inj (hu.symm.trans hv)
  exact Bool.false_ne_true (hf.symm.trans hb)

/-- Two blocks in lockstep that become free do so after the same number of steps. -/
theorem InLockstep.free_together {s s' u u' : State} {n n' : Nat} (h : InLockstep s s') (hn : Machine.busyThroughout n s)
    (hu : Host.Core.run Sys2Proof.core n s = .next u) (hf : u.busy = false) (hn' : Machine.busyThroughout n' s')
    (hu' : Host.Core.run Sys2Proof.core n' s' = .next u') (hf' : u'.busy = false) : n = n' :=
  Nat.le_antisymm (busyThroughout.le_of_free (h.busyThroughout hn) hu' hf')
    (busyThroughout.le_of_free (h.symm.busyThroughout hn') hu hf)

/-! ## Aliasing -/

section Mul

variable {s : State} {zd xs ys : Index} (hs : s.Inv) (hm : s.mode = .run) (hx : xs.toNat < s.cfg.ne)
  (hy : ys.toNat < s.cfg.ne)
include hs hm hx hy

theorem started_inv (hz : zd.toNat < s.cfg.ne) : ((s.start zd xs ys).respond 0).Inv :=
  (start_inv hs hm (decide_eq_true hz) (decide_eq_true hx) (decide_eq_true hy)).respond 0

/-- A started `MUL` that no reset abandons completes, with `FRED` of its almost-reduced value in its destination. -/
theorem started_completes (hl : letsMulFinish (3 * s.cfg.w + 1) s.host = true) (hz : zd.toNat < s.cfg.ne) :
    ∃ n u, busyThroughout n ((s.start zd xs ys).respond 0) ∧
      Host.Core.run Sys2Proof.core n ((s.start zd xs ys).respond 0) = .next u ∧ u.busy = false ∧
      slotAt u zd = some (fred ((s.start zd xs ys).respond 0).almostReduced s.q) := by
  obtain ⟨n, u, hbefore, hrun, -, hdone⟩ := completes_of_busy _ _ (started_inv hs hm hx hy hz) rfl rfl hl
  obtain ⟨-, helen, -⟩ := hs.1
  refine ⟨n, u, fun k hk => ?_, hrun, hdone.busy, ?_⟩
  · obtain ⟨v, hv, hvb, -⟩ := hbefore k hk
    exact ⟨v, hv, hvb⟩
  · show u.e[zd.toNat]? = _
    rw [hdone.e]
    exact List.getElem?_set_self (helen ▸ hz)

/-- The destination has no influence on how long a `MUL` takes. -/
theorem started_inLockstep {zd' : Index} (hz : zd.toNat < s.cfg.ne) (hz' : zd'.toNat < s.cfg.ne) :
    InLockstep ((s.start zd xs ys).respond 0) ((s.start zd' xs ys).respond 0) :=
  ⟨started_inv hs hm hx hy hz, started_inv hs hm hx hy hz', rfl, fun _ => ⟨rfl, rfl⟩⟩

end Mul

/-- Settles O39: the two `MUL`s run in lockstep and hand the same value to `FRED`, which alone writes the element file. -/
theorem aliasedMulGivesTheSameResult : Obligations.AliasedMulGivesTheSameResult := by
  intro s zd zd' xs ys hs hl hb hm hz hz' hx hy
  obtain ⟨n, u, hbusy, hrun, hfree, hslot⟩ := started_completes hs hm hx hy hl hz
  obtain ⟨n', u', hbusy', hrun', hfree', hslot'⟩ := started_completes hs hm hx hy hl hz'
  obtain rfl : n = n' :=
    (started_inLockstep hs hm hx hy hz hz').free_together hbusy hrun hfree hbusy' hrun' hfree'
  have hvalue : ((s.start zd' xs ys).respond 0).almostReduced = ((s.start zd xs ys).respond 0).almostReduced := rfl
  exact ⟨n, _, u, _, u', _, exec_mul_started hb hm hz hx hy, hbusy, hrun, hfree,
    exec_mul_started hb hm hz' hx hy, hbusy', hrun', hfree', hslot, hvalue ▸ hslot'⟩

end Sys2Proof.Machine
end

-- ==== The decoder and the encoder (R81 to R90) ====
section
/-! PROOFS. A word is decided by its five fields. So a word decodes to an instruction exactly if it is the instruction's encoding,
and a row of the opcode map fits exactly the encodings of the row's instructions. -/

namespace Sys2Proof

/-! ## Words and their fields -/

section Fields

variable (op : BitVec 4) (a b c : Index)

@[simp] theorem fieldZ_pack : fieldZ (pack op a b c) = 0 := BitVec.extractLsb'_append_eq_right

@[simp] theorem fieldC_pack : fieldC (pack op a b c) = c :=
  (BitVec.extractLsb'_append_eq_of_le (by decide)).trans BitVec.extractLsb'_append_eq_right

@[simp] theorem fieldB_pack : fieldB (pack op a b c) = b :=
  (BitVec.extractLsb'_append_eq_of_le (by decide)).trans <|
    (BitVec.extractLsb'_append_eq_of_le (by decide)).trans BitVec.extractLsb'_append_eq_right

@[simp] theorem fieldA_pack : fieldA (pack op a b c) = a :=
  (BitVec.extractLsb'_append_eq_of_le (by decide)).trans <|
    (BitVec.extractLsb'_append_eq_of_le (by decide)).trans <|
      (BitVec.extractLsb'_append_eq_of_le (by decide)).trans BitVec.extractLsb'_append_eq_right

@[simp] theorem fieldOp_pack : fieldOp (pack op a b c) = op :=
  (BitVec.extractLsb'_append_eq_of_le (by decide)).trans <|
    (BitVec.extractLsb'_append_eq_of_le (by decide)).trans <|
      (BitVec.extractLsb'_append_eq_of_le (by decide)).trans BitVec.extractLsb'_append_eq_left

end Fields

theorem append_fields (w : CmdWord) : fieldOp w ++ fieldA w ++ fieldB w ++ fieldC w ++ fieldZ w = w := by
  simp only [fieldOp, fieldA, fieldB, fieldC, fieldZ, BitVec.extractLsb'_append_extractLsb'_eq_extractLsb',
    BitVec.extractLsb'_eq_self]

/-- Two words are equal exactly if their fields are. -/
theorem word_eq_iff {v w : CmdWord} :
    v = w ↔ fieldOp v = fieldOp w ∧ fieldA v = fieldA w ∧ fieldB v = fieldB w ∧ fieldC v = fieldC w ∧
      fieldZ v = fieldZ w := by
  constructor
  · rintro rfl
    exact ⟨rfl, rfl, rfl, rfl, rfl⟩
  · rintro ⟨hop, ha, hb, hc, hz⟩
    rw [← append_fields v, hop, ha, hb, hc, hz, append_fields]

theorem eq_pack_iff {w : CmdWord} {op : BitVec 4} {a b c : Index} :
    w = pack op a b c ↔ fieldOp w = op ∧ fieldA w = a ∧ fieldB w = b ∧ fieldC w = c ∧ fieldZ w = 0 := by
  simp [word_eq_iff]

/-! ## Decoding and encoding are inverse -/

theorem ifZero_eq_ok_iff {mbz : Bool} {i j : Instr} : ifZero mbz i = .ok j ↔ mbz = true ∧ i = j := by
  cases mbz <;> simp [ifZero]

theorem decode_of_encode {w : CmdWord} {i : Instr} (h : encode i = some w) : decode w = .ok i := by
  cases i with
  | mac | quot | red | fred => exact nomatch h
  | _ =>
    obtain rfl := Option.some.inj h
    simp [decode, ifZero]

/-- A line of the decoder's table gives an instruction whose word has the fields that the line found. -/
theorem encode_of_fields {w : CmdWord} {n : Nat} {a b c : Index} {i : Instr} (hz : fieldZ w = 0)
    (hop : (fieldOp w).toNat = n) (hi : encode i = some (pack (BitVec.ofNat 4 n) a b c))
    (hf : fieldA w = a ∧ fieldB w = b ∧ fieldC w = c) : encode i = some w := by
  obtain ⟨ha, hb, hc⟩ := hf
  have hop' : fieldOp w = BitVec.ofNat 4 n := by rw [← hop, BitVec.ofNat_toNat, BitVec.setWidth_eq]
  rw [hi, ← eq_pack_iff.mpr ⟨hop', ha, hb, hc, hz⟩]

theorem encode_of_decode {w : CmdWord} {i : Instr} (h : decode w = .ok i) : encode i = some w := by
  simp only [decode] at h
  split at h
  · exact nomatch h
  · next hz =>
    have hz : fieldZ w = 0 := not_not.mp hz
    split at h
    case h_9 hop =>
      obtain rfl := Except.ok.inj h
      exact encode_of_fields hz hop rfl ⟨rfl, rfl, rfl⟩
    case h_11 => exact nomatch h
    all_goals
      next hop =>
      obtain ⟨hmbz, rfl⟩ := ifZero_eq_ok_iff.mp h
      exact encode_of_fields hz hop rfl (by simpa [and_assoc] using hmbz)

/-- A word decodes to an instruction exactly if it is the instruction's word (R90). -/
theorem decode_eq_ok_iff {w : CmdWord} {i : Instr} : decode w = .ok i ↔ encode i = some w :=
  ⟨encode_of_decode, decode_of_encode⟩

/-- Settles O2: each command's word decodes to it, and `encode` has no word for the others. -/
theorem decodeEncodeRoundTrip : Obligations.DecodeEncodeRoundTrip := by
  intro i
  cases i with
  | mac | quot | red | fred => exact ⟨nofun, fun _ => rfl⟩
  | _ => exact ⟨fun _ => ⟨_, rfl, decode_of_encode rfl⟩, fun h => absurd rfl h⟩

/-- Settles O3: decoding inverts encoding, and only commands have a word. -/
theorem decodedWordIsCanonical : Obligations.DecodedWordIsCanonical :=
  fun _ _ h => ⟨Machine.decode_isCommand h, encode_of_decode h⟩

/-! ## The opcode map -/

theorem fits_iff {r : TableRow} {w : CmdWord} : r.fits w = true ↔ w &&& r.mask = r.matchBits := beq_iff_eq

/-- A mask leaves a field as it is where it has ones. -/
theorem extractLsb'_of_mask {w mask : CmdWord} {start len : Nat} {v : BitVec len}
    (h : (w &&& mask).extractLsb' start len = v) (hm : mask.extractLsb' start len = BitVec.allOnes len) :
    w.extractLsb' start len = v := by
  rw [← h, BitVec.extractLsb'_and, hm, BitVec.and_allOnes]

section Formats

variable {w : CmdWord} {op : BitVec 4}

/-- Format N: no field is free (R82). -/
theorem eq_pack_of_formatN (h : w &&& 0xFFFFFFFF = pack op 0 0 0) : w = pack op 0 0 0 :=
  (BitVec.and_allOnes (x := w)).symm.trans h

/-- Format L: the fields `a` and `b` are free (R82). -/
theorem eq_pack_of_formatL (h : w &&& 0xF0000FFF = pack op 0 0 0) : w = pack op (fieldA w) (fieldB w) 0 := by
  obtain ⟨hop, -, -, hc, hz⟩ := eq_pack_iff.mp h
  exact eq_pack_iff.mpr ⟨extractLsb'_of_mask hop rfl, rfl, rfl, extractLsb'_of_mask hc rfl, extractLsb'_of_mask hz rfl⟩

/-- Format K: the field `b` is free (R82). -/
theorem eq_pack_of_formatK (h : w &&& 0xFFF00FFF = pack op 0 0 0) : w = pack op 0 (fieldB w) 0 := by
  obtain ⟨hop, ha, -, hc, hz⟩ := eq_pack_iff.mp h
  exact eq_pack_iff.mpr ⟨extractLsb'_of_mask hop rfl, extractLsb'_of_mask ha rfl, rfl, extractLsb'_of_mask hc rfl,
    extractLsb'_of_mask hz rfl⟩

/-- Format M: the fields `a`, `b` and `c` are free (R82). -/
theorem eq_pack_of_formatM (h : w &&& 0xF000000F = pack op 0 0 0) : w = pack op (fieldA w) (fieldB w) (fieldC w) := by
  obtain ⟨hop, -, -, -, hz⟩ := eq_pack_iff.mp h
  exact eq_pack_iff.mpr ⟨extractLsb'_of_mask hop rfl, rfl, rfl, rfl, extractLsb'_of_mask hz rfl⟩

end Formats

/-- A word that fits a row is the word of an instruction of that row. -/
theorem exists_encode_of_fits {r : TableRow} {w : CmdWord} (hr : r ∈ opcodeMap) (h : r.fits w = true) :
    ∃ i, encode i = some w ∧ tableRow i = some r := by
  rw [fits_iff] at h
  simp only [opcodeMap, List.mem_cons, List.not_mem_nil, or_false] at hr
  rcases hr with rfl | rfl | rfl | rfl | rfl | rfl | rfl | rfl | rfl | rfl
  · exact ⟨.nop, congrArg some (eq_pack_of_formatN h).symm, rfl⟩
  · exact ⟨.wrl (fieldA w) (fieldB w), congrArg some (eq_pack_of_formatL h).symm, rfl⟩
  · exact ⟨.rdl (fieldA w) (fieldB w), congrArg some (eq_pack_of_formatL h).symm, rfl⟩
  · exact ⟨.wrq (fieldB w), congrArg some (eq_pack_of_formatK h).symm, rfl⟩
  · exact ⟨.rdq (fieldB w), congrArg some (eq_pack_of_formatK h).symm, rfl⟩
  · exact ⟨.wrqi, congrArg some (eq_pack_of_formatN h).symm, rfl⟩
  · exact ⟨.rdqi, congrArg some (eq_pack_of_formatN h).symm, rfl⟩
  · exact ⟨.commit, congrArg some (eq_pack_of_formatN h).symm, rfl⟩
  · exact ⟨.mul (fieldA w) (fieldB w) (fieldC w), congrArg some (eq_pack_of_formatM h).symm, rfl⟩
  · exact ⟨.rdst, congrArg some (eq_pack_of_formatN h).symm, rfl⟩

/-- The model's law per instruction, for every instruction. -/
theorem tableRow_statement (i : Instr) : Laws.TableRow.Statement i := by
  cases i with
  | nop => exact Laws.TableRow.nop
  | wrl s k => exact Laws.TableRow.wrl s k
  | rdl s k => exact Laws.TableRow.rdl s k
  | wrq k => exact Laws.TableRow.wrq k
  | rdq k => exact Laws.TableRow.rdq k
  | wrqi => exact Laws.TableRow.wrqi
  | rdqi => exact Laws.TableRow.rdqi
  | commit => exact Laws.TableRow.commit
  | mul zd xs ys => exact Laws.TableRow.mul zd xs ys
  | rdst => exact Laws.TableRow.rdst
  | mac => exact Laws.TableRow.mac
  | quot => exact Laws.TableRow.quot
  | red => exact Laws.TableRow.red
  | fred => exact Laws.TableRow.fred

theorem fits_of_encode {r : TableRow} {w : CmdWord} {i : Instr} (hw : encode i = some w) (hr : tableRow i = some r) :
    r.fits w = true := by
  simpa only [Laws.TableRow.Statement, hw, hr] using tableRow_statement i

/-- Every command has a row, and the opcode map holds it. -/
theorem exists_row_of_isCommand {i : Instr} (hc : i.isCommand = true) : ∃ r ∈ opcodeMap, tableRow i = some r := by
  cases i with
  | mac | quot | red | fred => exact nomatch hc
  | _ => exact ⟨_, by decide, rfl⟩

/-- Settles O4: a row fits exactly the words of its instructions, and decoding inverts encoding. -/
theorem decoderAgreesWithOpcodeMap : Obligations.DecoderAgreesWithOpcodeMap := by
  intro w r hr
  simp only [decode_eq_ok_iff]
  exact ⟨exists_encode_of_fits hr, fun ⟨_, hw, hi⟩ => fits_of_encode hw hi⟩

/-- Settles O5: a word that fits a row decodes by O4, and one that decodes fits its instruction's row. -/
theorem reservedWordsFitNoRow : Obligations.ReservedWordsFitNoRow := by
  intro w
  constructor
  · rintro ⟨e, he⟩ r hr
    by_contra hfits
    obtain ⟨i, hi, -⟩ := (decoderAgreesWithOpcodeMap w r hr).mp (Bool.eq_true_of_not_eq_false hfits)
    exact nomatch he.symm.trans hi
  · intro hno
    cases hd : decode w with
    | error e => exact ⟨e, rfl⟩
    | ok i =>
      obtain ⟨r, hr, hi⟩ := exists_row_of_isCommand (Machine.decode_isCommand hd)
      have hfits := (decoderAgreesWithOpcodeMap w r hr).mpr ⟨i, hd, hi⟩
      exact absurd (hno r hr) (by simp [hfits])

/-- Settles O1: by evaluating the decoder on each of the fifteen words. -/
theorem sampleWordsDecode : Obligations.SampleWordsDecode := by
  unfold Obligations.SampleWordsDecode
  decide

end Sys2Proof
end

-- ==== Ignored commands (R92) ====
section
/-! PROOFS. A command is ignored where its guard fails, and each of the four causes of R92 is a reserved word or such a guard. -/

namespace Sys2Proof.Machine

theorem slotInRange_eq_false {s : State} {idx : Index} (h : s.cfg.ne ≤ idx.toNat) : slotInRange s idx = false :=
  decide_eq_false (Nat.not_lt.mpr h)

theorem limbInRange_eq_false {s : State} {k : Index} (h : s.cfg.w ≤ k.toNat) : limbInRange s k = false :=
  decide_eq_false (Nat.not_lt.mpr h)

/-- A decoded command that R92 says is ignored has no effect but the answer 0. -/
theorem exec_of_ignoredCause {s : State} {w : CmdWord} {i : Instr} (hb : s.busy = false) (hd : decode w = .ok i)
    (h : ignoredCause s w) : exec i s = ignore s := by
  simp only [ignoredCause, hd] at h
  cases i with
  | nop | rdqi | rdst | mac | quot | red | fred => exact h.elim
  | wrl idx k =>
    rcases h with h | h
    · simp [exec, execWrl, hb, slotInRange_eq_false h]
    · simp [exec, execWrl, hb, limbInRange_eq_false h]
  | rdl idx k =>
    rcases h with h | h
    · simp [exec, execRdl, hb, slotInRange_eq_false h]
    · simp [exec, execRdl, hb, limbInRange_eq_false h]
  | wrq k =>
    rcases h with h | h
    · simp [exec, execWrq, hb, h]
    · simp [exec, execWrq, hb, limbInRange_eq_false h]
  | rdq k => simp [exec, execRdq, hb, limbInRange_eq_false h]
  | wrqi => simp [exec, execWrqi, hb, show s.mode = .run from h]
  | commit => simp [exec, execCommit, hb, show s.mode = .run from h]
  | mul zd xs ys =>
    rcases h with h | h | h | h
    · simp [exec, execMul, hb, h]
    · simp [exec, execMul, hb, slotInRange_eq_false h]
    · simp [exec, execMul, hb, slotInRange_eq_false h]
    · simp [exec, execMul, hb, slotInRange_eq_false h]

theorem cmdReady_of_free {s : State} {c : Command} {rest : List HostInput} (hh : s.host = .command c :: rest)
    (hb : s.busy = false) : cmdReady s c.cmd = true :=
  (cmdReady_eq_true s c.cmd).mpr ⟨resetAsserted_command hh, .inl hb⟩

/-- Settles O7: a reserved word and a command whose guard fails are both answered by 0 and nothing else. -/
theorem ignoredCommandsChangeNothing : Obligations.IgnoredCommandsChangeNothing := by
  intro s c rest hh hb hcause
  rw [step_of_ready hh (cmdReady_of_free hh hb)]
  cases hd : decode c.cmd with
  | error e => rfl
  | ok i => exact exec_of_ignoredCause (s := s.quiet.accept c rest) hb hd hcause

end Sys2Proof.Machine
end

-- ==== Commands that are held (R91) ====
section
/-! PROOFS. While a command is held the sequencer moves in every step, so the `MUL` in progress has one step less to do after
each, and the command is ready when none is left. -/

namespace Sys2Proof.Machine

/-! ## Steps in which nothing is accepted -/

theorem Passes.host {s t : State} {rest : List HostInput} (hp : Passes s rest) (hstep : step s = .next t) :
    t.host = rest := by
  rw [step, hp.action] at hstep
  rcases sequencerAction_cases (s.quiet.consume rest) with ⟨-, ha⟩ | ⟨i, -, ha⟩ <;> rw [ha] at hstep
  · exact Host.Outcome.next.inj hstep ▸ rfl
  · obtain ⟨-, hhost, -⟩ := onlyTheListedWritersWrite i _ t hstep
    exact hhost

/-- A block with no steps left is free (R35). -/
theorem stepsLeft_eq_zero_iff {s : State} (hs : s.Inv) : s.stepsLeft = 0 ↔ s.busy = false := by
  cases hb : s.busy with
  | true => simpa using (stepsLeft_pos hs hb).ne'
  | false => simp [State.stepsLeft, hs.2.idle_of_free hb]

/-- No `MUL` has more steps left than a whole one (R146). -/
theorem stepsLeft_le (s : State) : s.stepsLeft ≤ 3 * s.cfg.w + 1 := by
  cases hp : s.ph <;> simp only [State.stepsLeft, hp] <;> omega

/-- A step that accepts nothing uses up one input, and one of the steps that the `MUL` has left, if any. -/
theorem Passes.step_next {s : State} {rest : List HostInput} (hp : Passes s rest) (hs : s.Inv) :
    ∃ t, step s = .next t ∧ t.Inv ∧ t.cfg = s.cfg ∧ t.host = rest ∧ t.rspValid = false ∧
      t.stepsLeft = s.stepsLeft - 1 := by
  have hnext : ∃ t, step s = .next t ∧ t.stepsLeft = s.stepsLeft - 1 := by
    cases hb : s.busy with
    | true =>
      obtain ⟨t, hstep, htb, hless⟩ := hp.step_of_busy hs hb
      have ht := (stepKeepsTheInvariant s t hs hstep).1
      refine ⟨t, hstep, ?_⟩
      cases hf : t.busy with
      | true =>
        obtain ⟨hone, -⟩ := hless hf
        exact Nat.eq_sub_of_add_eq hone
      | false =>
        have hlast : s.stepsLeft = 1 := by simpa [hf] using htb
        rw [(stepsLeft_eq_zero_iff ht).mpr hf, hlast]
    | false =>
      have hidle : s.ph = .idle := hs.2.idle_of_free hb
      have haction : sequencerAction (s.quiet.consume rest) = .settle (s.quiet.consume rest) := by
        simp [sequencerAction, hidle]
      refine ⟨_, by rw [step, hp.action, haction]; rfl, ?_⟩
      simp [State.stepsLeft, hidle]
  obtain ⟨t, hstep, hleft⟩ := hnext
  obtain ⟨ht, hcfg⟩ := stepKeepsTheInvariant s t hs hstep
  exact ⟨t, hstep, ht, hcfg, hp.host hstep, hp.rspValid hstep, hleft⟩

/-! ## Holding -/

theorem passes_of_held {s : State} {c : Command} {rest : List HostInput} (hh : s.host = .command c :: rest)
    (hr : cmdReady s c.cmd = false) : Passes s (.command c :: rest) :=
  .inr (.inr (.inr ⟨c, rest, hh, hr, rfl⟩))

/-- A presented command becomes ready within the steps that the `MUL` in progress has left. -/
theorem becomes_ready (d : Nat) {s : State} {c : Command} {rest : List HostInput} (hs : s.Inv)
    (hh : s.host = .command c :: rest) (hd : s.stepsLeft ≤ d) :
    ∃ n t, n ≤ d ∧ Host.Core.run Sys2Proof.core n s = .next t ∧ t.host = s.host ∧ cmdReady t c.cmd = true := by
  induction d generalizing s with
  | zero =>
    have hb : s.busy = false := (stepsLeft_eq_zero_iff hs).mp (Nat.le_zero.mp hd)
    exact ⟨0, s, le_rfl, rfl, rfl, cmdReady_of_free hh hb⟩
  | succ d ih =>
    cases hr : cmdReady s c.cmd with
    | true => exact ⟨0, s, Nat.zero_le _, rfl, rfl, hr⟩
    | false =>
      obtain ⟨t, hstep, ht, -, hth, -, hleft⟩ := (passes_of_held hh hr).step_next hs
      obtain ⟨n, u, hn, hrun, huh, hready⟩ := ih ht hth (by omega)
      exact ⟨n + 1, u, Nat.succ_le_succ hn, (run_succ_of_step hstep n).trans hrun, by rw [huh, hth, hh], hready⟩

/-- Settles O8: readiness by its definition, a held command by the sequencer's step, and its wait by the steps left. -/
theorem heldCommandsWaitForTheMul : Obligations.HeldCommandsWaitForTheMul := by
  refine ⟨fun s w => ?_, fun s c rest hh hr => ?_, fun s c rest hs hh => ?_⟩
  · rw [cmdReady_eq_true, acceptedWhileBusy_eq_true, ← Bool.not_eq_true, resetAsserted_eq_true, not_exists]
    simp only [not_exists, ne_eq]
  · rw [step_of_held hh hr, step_of_idle (s := { s with host := .idle :: s.host }) rfl]
    rfl
  · exact becomes_ready _ hs hh (stepsLeft_le s)

end Sys2Proof.Machine
end

-- ==== `WAIT` (R93, R94, R146, R191) ====
section
/-! PROOFS. Each input of a waiting host before its next poll takes one of the steps that the `MUL` has left, and a poll of a busy
block puts at least one such input before the next poll. So the polls end, by induction on the steps left and on the inputs
before the next poll. -/

namespace Sys2Proof.Machine

/-- Bit 0 of `STATUS` is `BUSY` (R40). -/
theorem statusWord_getLsbD_zero (s : State) : (statusWord s).getLsbD 0 = s.busy := by
  rw [statusWord, BitVec.getLsbD_setWidth, BitVec.getLsbD_append]
  simp

/-- A poll answers `STATUS`, and the host goes on waiting exactly if the block was busy. -/
theorem step_of_poll_next {s : State} {gap : Nat} {rest : List HostInput} (h : s.host = .wait gap 0 :: rest) :
    step s = .next ((s.quiet.accept pollCommand
      (if s.busy then .wait gap (gap + 1) :: rest else rest)).respond (statusWord s)) := by
  rw [step_of_poll h, afterPoll_statusWord]
  rfl

/-- After `n` steps the waiting host has had its answer: the block is free, and no response before said so. -/
structure WaitDone (gap : Nat) (rest : List HostInput) (s : State) (n : Nat) (t : State) : Prop where
  run : Host.Core.run Sys2Proof.core n s = .next t
  host : t.host = rest
  busy : t.busy = false
  rspValid : t.rspValid = true
  answer : t.rdata.getLsbD 0 = false
  before : ∀ k, 1 ≤ k → k < n → ∃ v : State, Host.Core.run Sys2Proof.core k s = .next v ∧
    (∃ left, v.host = .wait gap left :: rest) ∧ (v.rspValid = true → v.rdata.getLsbD 0 = true)

/-- The waiting host has its answer within so many steps. -/
def WaitEnds (gap : Nat) (rest : List HostInput) (bound : Nat) (s : State) : Prop :=
  ∃ n t, 1 ≤ n ∧ n ≤ bound ∧ WaitDone gap rest s n t

variable {gap left : Nat} {rest : List HostInput} {s t : State}

theorem WaitEnds.mono {b b' : Nat} (h : WaitEnds gap rest b s) (hb : b ≤ b') : WaitEnds gap rest b' s := by
  obtain ⟨n, t, h1, hn, hw⟩ := h
  exact ⟨n, t, h1, hn.trans hb, hw⟩

/-- A step of a waiting host whose wait goes on. -/
theorem WaitEnds.of_step {b : Nat} (h : WaitEnds gap rest b t) (hstep : step s = .next t)
    (hh : t.host = .wait gap left :: rest) (hr : t.rspValid = true → t.rdata.getLsbD 0 = true) :
    WaitEnds gap rest (b + 1) s := by
  obtain ⟨n, u, -, hn, hw⟩ := h
  refine ⟨n + 1, u, Nat.le_add_left 1 n, Nat.succ_le_succ hn, (run_succ_of_step hstep n).trans hw.run, hw.host, hw.busy,
    hw.rspValid, hw.answer, fun k h1 hk => ?_⟩
  obtain ⟨k, rfl⟩ := Nat.exists_eq_add_of_le' h1
  cases k with
  | zero => exact ⟨t, run_succ_of_step hstep 0, ⟨left, hh⟩, hr⟩
  | succ k =>
    obtain ⟨v, hv, hwait⟩ := hw.before (k + 1) (Nat.le_add_left 1 k) (Nat.lt_of_succ_lt_succ hk)
    exact ⟨v, (run_succ_of_step hstep _).trans hv, hwait⟩

/-- The poll of a free block is the last one. -/
theorem waitEnds_of_free (hh : s.host = .wait gap 0 :: rest) (hb : s.busy = false) : WaitEnds gap rest 1 s := by
  have hstep := step_of_poll_next hh
  rw [hb] at hstep
  exact ⟨1, _, le_rfl, le_rfl, run_succ_of_step hstep 0, rfl, hb, rfl, (statusWord_getLsbD_zero s).trans hb,
    fun k h1 hk => absurd hk (Nat.not_lt.mpr h1)⟩

/-- The inputs before the next poll use up that many of the steps that the `MUL` has left. -/
theorem waitEnds_of_left {m b : Nat}
    (hpoll : ∀ u : State, u.Inv → u.host = .wait gap 0 :: rest → u.stepsLeft ≤ m → WaitEnds gap rest b u)
    (hs : s.Inv) (hh : s.host = .wait gap left :: rest) (hd : s.stepsLeft ≤ m + left) :
    WaitEnds gap rest (b + left) s := by
  induction left generalizing s with
  | zero => exact hpoll s hs hh hd
  | succ left ih =>
    obtain ⟨t, hstep, ht, -, hth, hquiet, hless⟩ :=
      Passes.step_next (.inr (.inr (.inl ⟨gap, left, rest, hh, rfl⟩))) hs
    exact (ih ht hth (by omega)).of_step hstep hth (by simp [hquiet])

/-- From a poll of a block with at most `m` steps left: at most one poll in `gap + 2` steps for each of them, and one more. -/
theorem waitEnds_of_poll (m : Nat) (hs : s.Inv) (hh : s.host = .wait gap 0 :: rest) (hd : s.stepsLeft ≤ m) :
    WaitEnds gap rest ((gap + 2) * m + 1) s := by
  induction m generalizing s with
  | zero => exact waitEnds_of_free hh ((stepsLeft_eq_zero_iff hs).mp (Nat.le_zero.mp hd))
  | succ m ih =>
    cases hb : s.busy with
    | false => exact (waitEnds_of_free hh hb).mono (Nat.le_add_left 1 _)
    | true =>
      have hstep := step_of_poll_next hh
      rw [hb, if_pos rfl] at hstep
      have hinv := (stepKeepsTheInvariant _ _ hs hstep).1
      have hleft : s.stepsLeft ≤ m + (gap + 1) := by omega
      have hnext := waitEnds_of_left (fun _ hu hh' hd' => ih hu hh' hd') hinv rfl hleft
      refine (hnext.of_step hstep rfl fun _ => (statusWord_getLsbD_zero s).trans hb).mono (le_of_eq ?_)
      ring

/-- Settles O53: a poll answers `BUSY` in bit 0, and the waits between the polls use up the steps of the `MUL`. -/
theorem waitPollsUntilNotBusy : Obligations.WaitPollsUntilNotBusy := by
  refine ⟨fun s gap rest hh => ?_, fun s gap rest hs hh => ?_⟩
  · rw [step_of_poll hh, afterPoll_statusWord]
    rfl
  · obtain ⟨n, t, h1, hn, hw⟩ := waitEnds_of_poll _ hs hh (stepsLeft_le s)
    exact ⟨n, t, h1, hn, hw.run, hw.host, hw.busy, hw.rspValid, hw.answer, hw.before⟩

end Sys2Proof.Machine
end

-- ==== Commands and the data word (R96) ====
section
/-! PROOFS. Two properties of operations, each kept by the guards that the commands are made of: the operation does the same
whatever `wdata` holds, and the operation answers 0. -/

namespace Sys2Proof.Machine

/-! ## Operations that do not use `wdata` -/

/-- The state with another data word on the port. -/
def State.withData (s : State) (v : Word) : State := { s with wdata := v }

/-- The same outcome, with another next state. -/
def mapNext (g : State → State) : Result → Result
  | .next t => .next (g t)
  | .fault r => .fault r
  | .refused r => .refused r

/-- Whatever data word is on the port, the operation does the same and leaves it there. -/
def IgnoresData (f : State → Result) : Prop :=
  ∀ (s : State) (v : Word), f (s.withData v) = mapNext (·.withData v) (f s)

theorem ignoresData_ignore : IgnoresData ignore := fun _ _ => rfl

theorem ignoresData_loadWord (l : Loc) : IgnoresData (loadWord l) := by
  intro s v
  have hread : readLoc (s.withData v) l = readLoc s l := by cases l <;> rfl
  rw [loadWord, hread, loadWord]
  cases readLoc s l <;> rfl

theorem IgnoresData.guarded {f : State → Result} (hf : IgnoresData f) (p : State → Prop) [DecidablePred p]
    (hp : ∀ s v, p (State.withData s v) ↔ p s) : IgnoresData fun s => if p s then f s else ignore s := by
  intro s v
  by_cases hs : p s
  · simp only [if_pos hs, if_pos ((hp s v).mpr hs), hf s v]
  · simp only [if_neg hs, if_neg (mt (hp s v).mp hs), ignoresData_ignore s v]

theorem IgnoresData.whenAccepted {f : State → Result} (hf : IgnoresData f) :
    IgnoresData fun s => Machine.whenAccepted s f := by
  intro s v
  cases hb : s.busy with
  | true => simp only [whenAccepted_busy s f hb, whenAccepted_busy (s.withData v) f hb, mapNext]
  | false => simp only [whenAccepted_free s f hb, whenAccepted_free (s.withData v) f hb, hf s v]

theorem IgnoresData.whenPhase {f : State → Result} (p : Phase) (hf : IgnoresData f) :
    IgnoresData fun s => Machine.whenPhase p s f := by
  intro s v
  by_cases hp : s.ph = p
  · simp only [whenPhase_of_eq p s f hp, whenPhase_of_eq p (s.withData v) f hp, hf s v]
  · simp only [whenPhase_of_ne p s f hp, whenPhase_of_ne p (s.withData v) f hp, mapNext]

theorem ignoresData_commit : IgnoresData (exec .commit) := by
  have h : IgnoresData fun s => .next ({ s with mode := .run }.respond 0) := fun _ _ => rfl
  exact (h.guarded (fun s => s.mode = .setup) fun _ _ => Iff.rfl).whenAccepted

theorem ignoresData_mul (zd xs ys : Index) : IgnoresData (exec (.mul zd xs ys)) := by
  have h : IgnoresData fun s => .next ((s.start zd xs ys).respond 0) := fun _ _ => rfl
  exact (h.guarded (fun s => s.mode = .run && slotInRange s zd && slotInRange s xs && slotInRange s ys)
    fun _ _ => Iff.rfl).whenAccepted

theorem ignoresData_mac : IgnoresData (exec .mac) := by
  refine IgnoresData.whenPhase .multiply fun s v => ?_
  have hx : slotAt (s.withData v) (s.withData v).xs = slotAt s s.xs := rfl
  have hy : limbAt (s.withData v) (s.withData v).ys.toNat (s.withData v).i = limbAt s s.ys.toNat s.i := rfl
  rw [hx, hy]
  cases slotAt s s.xs <;> cases limbAt s s.ys.toNat s.i <;> rfl

theorem ignoresData_quot : IgnoresData (exec .quot) := by
  refine IgnoresData.whenPhase .quotient fun s v => ?_
  have ht : (s.withData v).t = s.t := rfl
  rw [ht]
  cases s.t <;> rfl

theorem afterReduce_withData (s : State) (v : Word) : (s.withData v).afterReduce = s.afterReduce.withData v := by
  by_cases h : s.i + 1 = s.cfg.w
  · rw [State.afterReduce_of_last h, State.afterReduce_of_last (s := s.withData v) h]
    rfl
  · rw [State.afterReduce_of_more h, State.afterReduce_of_more (s := s.withData v) h]
    rfl

theorem ignoresData_red : IgnoresData (exec .red) := by
  refine IgnoresData.whenPhase .reduce fun s v => ?_
  have ht : (s.withData v).t = s.t := rfl
  have hq : (s.withData v).q = s.q := rfl
  rw [ht, hq]
  cases s.t with
  | nil => rfl
  | cons t0 ts =>
    cases s.q with
    | nil => rfl
    | cons q0 qs =>
      simp only [mapNext, ← afterReduce_withData]
      rfl

theorem ignoresData_fred : IgnoresData (exec .fred) := by
  refine IgnoresData.whenPhase .finalReduce fun s v => ?_
  have hw : writeSlot (s.withData v) (s.withData v).zd (fred (s.withData v).t (s.withData v).q)
      (inputsWritten (s.withData v) (s.withData v).xs (s.withData v).ys) =
      (writeSlot s s.zd (fred s.t s.q) (inputsWritten s s.xs s.ys)).map (·.withData v) := by
    rw [writeSlot, writeSlot, Option.map_map]
    rfl
  rw [hw]
  cases writeSlot s s.zd (fred s.t s.q) (inputsWritten s s.xs s.ys) <;> rfl

/-- Every instruction but the three writes ignores `wdata`. -/
theorem exec_ignoresData {i : Instr} (hl : ∀ idx k, i ≠ .wrl idx k) (hq : ∀ k, i ≠ .wrq k) (hi : i ≠ .wrqi) :
    IgnoresData (exec i) := by
  cases i with
  | wrl idx k => exact absurd rfl (hl idx k)
  | wrq k => exact absurd rfl (hq k)
  | wrqi => exact absurd rfl hi
  | nop => exact ignoresData_ignore
  | rdl idx k =>
    exact ((ignoresData_loadWord _).guarded (fun s => slotInRange s idx && limbInRange s k) fun _ _ => Iff.rfl).whenAccepted
  | rdq k => exact ((ignoresData_loadWord _).guarded (fun s => limbInRange s k) fun _ _ => Iff.rfl).whenAccepted
  | rdqi => exact (ignoresData_loadWord _).whenAccepted
  | rdst => exact ignoresData_loadWord .status
  | commit => exact ignoresData_commit
  | mul zd xs ys => exact ignoresData_mul zd xs ys
  | mac => exact ignoresData_mac
  | quot => exact ignoresData_quot
  | red => exact ignoresData_red
  | fred => exact ignoresData_fred

/-! ## Operations that return no word -/

/-- Whatever next state the operation answers, it responds with 0. -/
def AnswersZero (r : Result) : Prop :=
  ∀ t, r = .next t → t.rspValid = true ∧ t.rdata = 0

theorem answersZero_respond (s : State) : AnswersZero (.next (s.respond 0)) := by
  rintro _ ⟨⟩
  exact ⟨rfl, rfl⟩

theorem answersZero_storeWord (l : Loc) (s : State) : AnswersZero (storeWord l s) := by
  intro t h
  obtain ⟨u, -, rfl⟩ := storeWord_next h
  exact ⟨rfl, rfl⟩

theorem AnswersZero.guarded {r : Result} (hr : AnswersZero r) {p : Prop} [Decidable p] {s : State} :
    AnswersZero (if p then r else ignore s) := by
  split
  · exact hr
  · exact answersZero_respond s

/-- The commands that return no word, where they are accepted. -/
theorem exec_answersZero {i : Instr} {s : State} (hb : s.busy = false)
    (hi : (∃ idx k, i = .wrl idx k) ∨ (∃ k, i = .wrq k) ∨ i = .wrqi ∨ i = .commit ∨ ∃ zd xs ys, i = .mul zd xs ys) :
    AnswersZero (exec i s) := by
  rcases hi with ⟨idx, k, rfl⟩ | ⟨k, rfl⟩ | rfl | rfl | ⟨zd, xs, ys, rfl⟩
  · rw [exec, execWrl, whenAccepted_free s _ hb]
    exact (answersZero_storeWord _ s).guarded
  · rw [exec, execWrq, whenAccepted_free s _ hb]
    exact (answersZero_storeWord _ s).guarded
  · rw [exec, execWrqi, whenAccepted_free s _ hb]
    exact (answersZero_storeWord _ s).guarded
  · rw [exec, execCommit, whenAccepted_free s _ hb]
    exact (answersZero_respond _).guarded
  · rw [exec, execMul, whenAccepted_free s _ hb]
    exact (answersZero_respond _).guarded

/-- Settles O44: each instruction is made of operations that ignore `wdata`, each of the six commands of ones that answer 0. -/
theorem unusedDataWordHasNoInfluence : Obligations.UnusedDataWordHasNoInfluence := by
  refine ⟨fun i s t v hl hq hi h => ?_, fun i s t hi hr h => ?_⟩
  · exact (exec_ignoresData hl hq hi s v).trans (by rw [h]; rfl)
  · rcases hi with rfl | hi
    · exact answersZero_respond s t h
    · have hb : s.busy = false := hr.resolve_right (by rintro rfl; simp at hi)
      exact exec_answersZero hb hi t h

end Sys2Proof.Machine
end

-- ==== Host programs (R93, R94, R112, R125) ====
section
/-! PROOFS. A free block takes one step for each command that the host issues. A sequence of limb writes replaces the limbs of a
vector one by one, and a sequence of limb reads answers them one by one; each is an induction on the sequence. -/

namespace Sys2Proof.Machine

/-! ## Issued commands -/

/-- The state in which an issued command is performed: its data word on the port, the rest of the host's inputs to come. -/
def State.issued (s : State) (d : Word) (rest : List HostInput) : State :=
  { s with host := rest, wdata := d, rspValid := false }

/-- A free block performs the command that the host issues (R91, R93). -/
theorem step_of_issued {s : State} {i : Instr} {d : Word} {rest : List HostInput} (hc : i.isCommand = true)
    (hb : s.busy = false) (hh : s.host = (commandsOf i d).map .command ++ rest) : step s = exec i (s.issued d rest) := by
  obtain ⟨w, hw, hd⟩ := (decodeEncodeRoundTrip i).1 hc
  have hh' : s.host = .command ⟨w, d⟩ :: rest := by simpa [commandsOf, hw] using hh
  exact stepRunsTheDecodedCommand s ⟨w, d⟩ rest i hh' (cmdReady_of_free hh' hb) hd

theorem run_add_of_run {s t : State} {m n : Nat} (h : Host.Core.run Sys2Proof.core m s = .next t) :
    Host.Core.run Sys2Proof.core (m + n) s = Host.Core.run Sys2Proof.core n t := by
  induction m generalizing s with
  | zero => rw [Nat.zero_add, Host.Outcome.next.inj h]
  | succ m ih =>
    cases hs : step s with
    | next u =>
      rw [run_succ_of_step hs] at h
      rw [Nat.succ_add, run_succ_of_step hs, ih h]
    | fault | refused =>
      have hcore : Sys2Proof.core.step s = _ := hs
      simp [Host.Core.run, hcore] at h

/-- The index that names limb `k` (R84); `W` is at most 256 (R9). -/
theorem State.Shaped.toNat_ofNat {s : State} (hs : s.Shaped) {k : Nat} (hk : k < s.cfg.w) :
    (BitVec.ofNat 8 k).toNat = k := by
  obtain ⟨⟨⟨-, hw⟩, -⟩, -⟩ := hs
  rw [BitVec.toNat_ofNat]
  omega

theorem State.Shaped.limbInRange_ofNat {s : State} (hs : s.Shaped) {k : Nat} (hk : k < s.cfg.w) :
    limbInRange s (BitVec.ofNat 8 k) = true := by
  rw [limbInRange, hs.toNat_ofNat hk]
  exact decide_eq_true hk

/-! ## Sequences of limb writes -/

/-- Where `Holds x` says that the block holds the vector `x`, the write command of limb `k` is one step, after which the block
holds the vector with limb `k` set. -/
def WritesLimbs (w : Nat) (write : Index → Instr) (Holds : Limbs → State → Prop) : Prop :=
  ∀ (x : Limbs) (k : Nat) (d : Word) (rest : List HostInput) (s : State), Holds x s → k < w →
    s.host = (commandsOf (write (BitVec.ofNat 8 k)) d).map .command ++ rest →
    ∃ t, step s = .next t ∧ t.host = rest ∧ Holds (x.set k d) t

/-- A sequence of writes from limb `pre.length` on puts the limbs it brings in the place of the ones there. -/
theorem run_writeLimbs {write : Index → Instr} {w : Nat} {Holds : Limbs → State → Prop}
    (hwrite : WritesLimbs w write Holds) (v pre old : Limbs) (rest : List HostInput) (s : State)
    (hold : Holds (pre ++ old) s) (hl : old.length = v.length) (hw : pre.length + v.length ≤ w)
    (hh : s.host = (writeLimbs write pre.length v).map .command ++ rest) :
    ∃ t, Host.Core.run Sys2Proof.core v.length s = .next t ∧ t.host = rest ∧ Holds (pre ++ v) t := by
  induction v generalizing pre old s with
  | nil =>
    obtain rfl := List.eq_nil_of_length_eq_zero hl
    exact ⟨s, rfl, hh, hold⟩
  | cons d v ih =>
    obtain ⟨o, old, rfl⟩ := List.exists_cons_of_length_eq_add_one hl
    rw [List.length_cons] at hw
    rw [writeLimbs, List.map_append, List.append_assoc] at hh
    obtain ⟨t, hst, hth, ht⟩ := hwrite _ _ d _ s hold (by omega) hh
    rw [List.set_append_right _ _ le_rfl, Nat.sub_self, List.set_cons_zero, List.append_cons] at ht
    have hpre : (pre ++ [d]).length = pre.length + 1 := by simp
    rw [← hpre] at hth
    obtain ⟨u, hrun, huh, hu⟩ := ih (pre ++ [d]) old t ht (by simpa using hl) (by omega) hth
    exact ⟨u, (run_succ_of_step hst _).trans hrun, huh, by rwa [List.append_cons]⟩

/-- The same for a whole vector. -/
theorem run_writeVector {write : Index → Instr} {w : Nat} {Holds : Limbs → State → Prop}
    (hwrite : WritesLimbs w write Holds) {v x : Limbs} {rest : List HostInput} {s : State}
    (hold : Holds x s) (hx : x.length = w) (hv : v.length = w)
    (hh : s.host = (writeLimbs write 0 v).map .command ++ rest) :
    ∃ t, Host.Core.run Sys2Proof.core w s = .next t ∧ t.host = rest ∧ Holds v t := by
  subst hv
  exact run_writeLimbs hwrite v [] x rest s hold hx (Nat.le_of_eq (Nat.zero_add _)) hh

/-- A write command whose location the block holds is one step, and keeps the invariant. -/
theorem step_of_issued_store {s : State} {i : Instr} {l : Loc} {d v : Word} {rest : List HostInput} (hs : s.Inv)
    (hb : s.busy = false) (hc : i.isCommand = true) (hh : s.host = (commandsOf i d).map .command ++ rest)
    (hexec : exec i (s.issued d rest) = storeWord l (s.issued d rest)) (hread : readLoc (s.issued d rest) l = some v)
    (hl : l ≠ .status) :
    ∃ t, writeLoc (s.issued d rest) l d = some t ∧ step s = .next (t.respond 0) ∧ (t.respond 0).Inv := by
  obtain ⟨t, ht⟩ := writeLoc_isSome_of_readLoc hread hl d
  have hstep : step s = .next (t.respond 0) :=
    (step_of_issued hc hb hh).trans (hexec.trans (storeWord_of_writeLoc ht))
  exact ⟨t, ht, hstep, (stepKeepsTheInvariant s _ hs hstep).1⟩

/-! ## The setup sequence -/

/-- The block is in SETUP mode with the modulus `x` loaded, and with these parameters and this element file. -/
structure LoadsModulus (cfg : Config) (e : List Limbs) (x : Limbs) (s : State) : Prop where
  inv : s.Inv
  mode : s.mode = .setup
  cfg : s.cfg = cfg
  e : s.e = e
  q : s.q = x

theorem State.Inv.free_of_setup {s : State} (hs : s.Inv) (hm : s.mode = .setup) : s.busy = false := by
  by_contra hb
  exact nomatch hm.symm.trans (hs.mode_of_busy (Bool.eq_true_of_not_eq_false hb))

theorem writesLimbs_wrq (cfg : Config) (e : List Limbs) : WritesLimbs cfg.w .wrq (LoadsModulus cfg e) := by
  rintro _ k d rest s ⟨hs, hm, rfl, rfl, rfl⟩ hk hh
  have hb : s.busy = false := hs.free_of_setup hm
  have hrange : limbInRange (s.issued d rest) (BitVec.ofNat 8 k) = true := hs.1.limbInRange_ofNat hk
  obtain ⟨v, hv⟩ := State.Shaped.readLoc_modulus (s := s.issued d rest) hs.1 hrange
  obtain ⟨t, ht, hstep, hinv⟩ := step_of_issued_store hs hb rfl hh
    (exec_wrq_of_free (s := s.issued d rest) hb hm hrange) hv nofun
  rw [modulusLoc, hs.1.toNat_ofNat hk] at ht
  rw [writeLoc_q ht] at hstep hinv
  exact ⟨_, hstep, rfl, hinv, hm, rfl, rfl, rfl⟩

/-- `COMMIT` of a free block in SETUP mode (R124). -/
theorem exec_commit_of_free {s : State} (hb : s.busy = false) (hm : s.mode = .setup) :
    exec .commit s = .next ({ s with mode := .run }.respond 0) := by
  simp [exec, execCommit, hb, hm]

/-- `WRQI` and `COMMIT`, the last two commands of the setup sequence, are two steps. -/
theorem run_wrqi_commit {s : State} {v : Word} (hs : s.Inv) (hb : s.busy = false) (hm : s.mode = .setup)
    (hh : s.host = (commandsOf .wrqi v).map .command ++ (commandsOf .commit 0).map .command) :
    ∃ t, Host.Core.run Sys2Proof.core 2 s = .next t ∧ t.host = [] ∧ t.busy = false ∧ t.q = s.q ∧ t.qinv0 = v ∧
      t.mode = .run ∧ t.e = s.e := by
  obtain ⟨t, ht, hwrqi, -⟩ := step_of_issued_store hs hb rfl hh (exec_wrqi_of_free (s := s.issued v _) hb hm) rfl nofun
  obtain ⟨hcontrol, -⟩ := writeLoc_frame ht
  have htb : t.busy = false := hcontrol.busy.trans hb
  have hth : t.host = (commandsOf .commit 0).map .command ++ [] := Option.some.inj ht ▸ rfl
  have hcommit := (step_of_issued (s := t.respond 0) rfl htb hth).trans
    (exec_commit_of_free (s := (t.respond 0).issued 0 []) htb (hcontrol.mode.trans hm))
  obtain rfl := Option.some.inj ht
  exact ⟨_, (run_succ_of_step hwrqi 1).trans (run_succ_of_step hcommit 0), rfl, hb, rfl, rfl, rfl, rfl⟩

/-- Settles O51: `W` writes of limbs of the modulus, then `WRQI`, then `COMMIT`. -/
theorem setqLoadsTheParameters : Obligations.SetqLoadsTheParameters := by
  intro s n v hs hm hn hh
  have hq : s.q.length = s.cfg.w := by
    obtain ⟨-, -, -, hq, -⟩ := hs.1
    exact hq
  have hh' : s.host = (writeLimbs .wrq 0 (limbsOf s.cfg.w n)).map .command ++
      ((commandsOf .wrqi v).map .command ++ (commandsOf .commit 0).map .command) := by
    simpa [programInputs, Line.expand] using hh
  obtain ⟨t, hrun, hth, ht⟩ :=
    run_writeVector (writesLimbs_wrq s.cfg s.e) ⟨hs, hm, rfl, rfl, rfl⟩ hq (limbsOf_length _ n) hh'
  obtain ⟨u, hrun', huh, hub, huq, hui, hum, hue⟩ := run_wrqi_commit ht.inv (ht.inv.free_of_setup ht.mode) ht.mode hth
  refine ⟨u, (run_add_of_run hrun).trans hrun', huh, hub, ?_, hui, hum, hue.trans ht.e⟩
  rw [huq, ht.q, val_limbsOf_of_lt hn]

/-! ## Elements -/

theorem set_modify_self (l : List Limbs) (idx : Nat) (x : Limbs) (f : Limbs → Limbs) :
    (l.set idx x).modify idx f = l.set idx (f x) := by
  rw [List.set_eq_modify, List.set_eq_modify, List.modify_modify_eq]
  rfl

/-- The block is free with the vector `x` in slot `idx`, and with these parameters and otherwise this element file. -/
structure HoldsElement (cfg : Config) (e : List Limbs) (idx : Index) (x : Limbs) (s : State) : Prop where
  inv : s.Inv
  busy : s.busy = false
  cfg : s.cfg = cfg
  e : s.e = e.set idx.toNat x

theorem writesLimbs_wrl {cfg : Config} (e : List Limbs) {idx : Index} (hi : idx.toNat < cfg.ne) :
    WritesLimbs cfg.w (.wrl idx) (HoldsElement cfg e idx) := by
  rintro x k d rest s ⟨hs, hb, rfl, he⟩ hk hh
  have hslot : slotInRange (s.issued d rest) idx = true := decide_eq_true hi
  have hlimb : limbInRange (s.issued d rest) (BitVec.ofNat 8 k) = true := hs.1.limbInRange_ofNat hk
  obtain ⟨v, hv⟩ := State.Shaped.readLoc_element (s := s.issued d rest) hs.1 hslot hlimb
  obtain ⟨t, ht, hstep, hinv⟩ := step_of_issued_store hs hb rfl hh
    (exec_wrl_of_free (s := s.issued d rest) hb hslot hlimb) hv nofun
  rw [elementLoc, hs.1.toNat_ofNat hk] at ht
  rw [writeLoc_e ht] at hstep hinv
  refine ⟨_, hstep, rfl, hinv, hb, rfl, ?_⟩
  show s.e.modify idx.toNat (fun x => x.set k d) = _
  rw [he, set_modify_self]

/-- The responses to a sequence of limb reads of one slot. -/
theorem run_readLimbs {idx : Index} (ks : List Nat) {s : State} (hs : s.Inv) (hb : s.busy = false)
    (hi : idx.toNat < s.cfg.ne) (hk : ∀ k ∈ ks, k < s.cfg.w)
    (hh : s.host = (ks.flatMap fun k => commandsOf (.rdl idx (BitVec.ofNat 8 k)) 0).map .command)
    (j : Nat) (hj : j < ks.length) :
    ∃ t, Host.Core.run Sys2Proof.core (j + 1) s = .next t ∧ t.rspValid = true ∧
      limbAt s idx.toNat ks[j] = some t.rdata := by
  induction ks generalizing s j with
  | nil => exact absurd hj j.not_lt_zero
  | cons k ks ih =>
    obtain ⟨hk0, hks⟩ := List.forall_mem_cons.mp hk
    rw [List.flatMap_cons, List.map_append] at hh
    generalize hrest : (ks.flatMap fun k => commandsOf (.rdl idx (BitVec.ofNat 8 k)) 0).map HostInput.command = rest at hh
    have hslot : slotInRange (s.issued 0 rest) idx = true := decide_eq_true hi
    have hlimb : limbInRange (s.issued 0 rest) (BitVec.ofNat 8 k) = true := hs.1.limbInRange_ofNat hk0
    obtain ⟨v, hv⟩ := State.Shaped.readLoc_element (s := s.issued 0 rest) hs.1 hslot hlimb
    have hstep : step s = .next ((s.issued 0 rest).respond v) :=
      (step_of_issued rfl hb hh).trans ((exec_rdl_of_free (s := s.issued 0 rest) hb hslot hlimb).trans
        (loadWord_of_readLoc hv))
    cases j with
    | zero =>
      rw [elementLoc, hs.1.toNat_ofNat hk0] at hv
      exact ⟨_, run_succ_of_step hstep 0, rfl, hv⟩
    | succ j =>
      obtain ⟨t, hrun, hr, hlimbs⟩ :=
        ih (s := (s.issued 0 rest).respond v) hs hb hi hks hrest.symm j (Nat.lt_of_succ_lt_succ hj)
      exact ⟨t, (run_succ_of_step hstep _).trans hrun, hr, hlimbs⟩

/-- Settles O52: `W` writes of limbs of the slot, and `W` reads of them. -/
theorem elementMovesAsLimbCommands : Obligations.ElementMovesAsLimbCommands := by
  refine ⟨fun s idx n hs hb hi hn hh => ?_, fun s idx hs hb hi hh => ?_⟩
  · obtain ⟨x, hx, hxl⟩ := hs.1.slotAt_isSome hi
    have hh' : s.host = (writeLimbs (.wrl idx) 0 (limbsOf s.cfg.w n)).map .command ++ [] := by
      simpa [programInputs, Line.expand] using hh
    have hset : s.e = s.e.set idx.toNat x := by
      obtain ⟨hlt, hget⟩ := List.getElem?_eq_some_iff.mp hx
      rw [← hget, List.set_getElem_self]
    obtain ⟨t, hrun, hth, ht⟩ :=
      run_writeVector (writesLimbs_wrl s.e hi) ⟨hs, hb, rfl, hset⟩ hxl (limbsOf_length _ n) hh'
    exact ⟨t, hrun, hth, ht.e⟩
  · obtain ⟨x, hx, hxl⟩ := hs.1.slotAt_isSome hi
    have hh' : s.host = ((List.range s.cfg.w).flatMap fun k => commandsOf (.rdl idx (BitVec.ofNat 8 k)) 0).map
        .command := by
      simpa [programInputs, Line.expand] using hh
    refine ⟨x, hxl, fun k hk => ?_, hx, by rw [fetchedValue, hx, Option.getD_some]⟩
    obtain ⟨t, hrun, hr, hlimb⟩ := run_readLimbs (List.range s.cfg.w) hs hb hi (fun k => List.mem_range.mp) hh' k
      (by simpa using hk)
    exact ⟨t, hrun, hr, by simpa [limbAt, show s.e[idx.toNat]? = some x from hx] using hlimb⟩

end Sys2Proof.Machine
end

-- ==== Limb access (R82, R110, R111) ====
section
/-! PROOFS. A command word is the `OR` of its shifted fields. `WRL` and `RDL` are a write and a read of one location of `E`; the
write sets that limb and its mark and no other. -/

namespace Sys2Proof

/-! ## Words as shifted fields -/

theorem setWidth_append_shiftLeft {m n : Nat} (x : BitVec m) (y : BitVec n) (w k : Nat) :
    (x ++ y).setWidth w <<< k = x.setWidth w <<< (k + n) ||| y.setWidth w <<< k := by
  ext i hi
  by_cases hk : i < k
  · have hnk : i < k + n := by omega
    simp [hk, hnk]
  · by_cases hnk : i < k + n
    · have hy : i - k < n := by omega
      simp [BitVec.getLsbD_append, hk, hnk, hy]
    · have hy : n ≤ i - k := by omega
      simp [BitVec.getLsbD_append, hk, hnk, Nat.not_lt.mpr hy, BitVec.getLsbD_of_ge y _ hy, Nat.sub_sub]

/-- Each field of a command word stands at its own place (R81). -/
theorem pack_eq_or (op : BitVec 4) (a b c : Index) :
    pack op a b c =
      op.setWidth 32 <<< 28 ||| a.setWidth 32 <<< 20 ||| b.setWidth 32 <<< 12 ||| c.setWidth 32 <<< 4 := by
  calc pack op a b c
    _ = (op ++ a ++ b ++ c ++ 0x0#4).setWidth 32 <<< 0 := by simp [pack]
    _ = _ := by
      simp only [setWidth_append_shiftLeft]
      simp

/-- The word of a command with a slot and a limb index (R82). -/
theorem pack_formatL_eq_or (op : BitVec 4) (idx k : Index) :
    pack op idx k 0 = op.setWidth 32 <<< 28 ||| idx.setWidth 32 <<< 20 ||| k.setWidth 32 <<< 12 := by
  simp [pack_eq_or]

end Sys2Proof

namespace Sys2Proof.Machine

variable {s t : State}

/-! ## A limb access out of range -/

theorem exec_wrl_of_outOfRange {idx k : Index} (hb : s.busy = false)
    (h : s.cfg.ne ≤ idx.toNat ∨ s.cfg.w ≤ k.toNat) : exec (.wrl idx k) s = ignore s :=
  have hd : decode (pack 0x1 idx k 0) = .ok (.wrl idx k) := decode_of_encode rfl
  exec_of_ignoredCause hb hd (by simpa only [ignoredCause, hd] using h)

theorem exec_rdl_of_outOfRange {idx k : Index} (hb : s.busy = false)
    (h : s.cfg.ne ≤ idx.toNat ∨ s.cfg.w ≤ k.toNat) : exec (.rdl idx k) s = ignore s :=
  have hd : decode (pack 0x2 idx k 0) = .ok (.rdl idx k) := decode_of_encode rfl
  exec_of_ignoredCause hb hd (by simpa only [ignoredCause, hd] using h)

/-! ## A write of one limb -/

/-- Setting one entry of a list of lists leaves every other entry as it was. -/
theorem getElem?_modify_set_of_ne {α : Type} {l : List (List α)} {idx k a b : Nat} {v : α} (hne : (a, b) ≠ (idx, k)) :
    ((l.modify idx fun x => x.set k v)[a]?.bind fun x => x[b]?) = l[a]?.bind fun x => x[b]? := by
  by_cases ha : idx = a
  · subst ha
    have hb : k ≠ b := fun hb => hne (by rw [hb])
    cases hx : l[idx]? <;> simp [hx, hb]
  · simp [ha]

/-- A write of a limb of `E` leaves every other limb, and its mark, as it was. -/
theorem limb_frame_of_writeLoc {idx k a b : Nat} {v : Word} (h : writeLoc s (.e idx k) v = some t)
    (hne : (a, b) ≠ (idx, k)) : limbAt t a b = limbAt s a b ∧ (limbWritten t a b ↔ limbWritten s a b) := by
  rw [writeLoc_e h]
  exact ⟨getElem?_modify_set_of_ne hne, iff_of_eq (congrArg (· = some true) (getElem?_modify_set_of_ne hne))⟩

/-- A write of a limb of `E` sets its mark, where there is one. -/
theorem State.Shaped.limbWritten_of_writeLoc (hs : s.Shaped) {idx k : Nat} {v : Word}
    (h : writeLoc s (.e idx k) v = some t) (hi : idx < s.cfg.ne) (hk : k < s.cfg.w) : limbWritten t idx k := by
  obtain ⟨-, -, -, -, -, hlen, hrow, -⟩ := hs
  have hi' : idx < s.eWritten.length := hlen ▸ hi
  have hk' : k < s.eWritten[idx].length := hrow _ (List.getElem_mem hi') ▸ hk
  rw [writeLoc_e h]
  simp [limbWritten, hi', hk']

/-- Settles O13: in range `WRL` is a write of the limb that its indices name, whose frame is that of `writeLoc`. -/
theorem wrlWritesOneLimb : Obligations.WrlWritesOneLimb := by
  intro s idx k
  refine ⟨congrArg some (pack_formatL_eq_or 0x1 idx k), fun hb => by simp [exec, execWrl, hb],
    exec_wrl_of_outOfRange, fun hs hb hi hk => ?_⟩
  have hslot : slotInRange s idx = true := decide_eq_true hi
  have hlimb : limbInRange s k = true := decide_eq_true hk
  obtain ⟨v, hv⟩ := hs.1.readLoc_element hslot hlimb
  obtain ⟨t, ht⟩ := writeLoc_isSome_of_readLoc hv nofun s.wdata
  have hexec : exec (.wrl idx k) s = .next (t.respond 0) :=
    (exec_wrl_of_free hb hslot hlimb).trans (storeWord_of_writeLoc ht)
  have hmark : limbWritten t idx.toNat k.toNat := hs.1.limbWritten_of_writeLoc ht hi hk
  refine ⟨t.respond 0, hexec, readLoc_of_writeLoc ht, hmark,
    fun a b hne => limb_frame_of_writeLoc (t := t) ht hne, ?_⟩
  rw [writeLoc_e ht]
  rfl

/-- Settles O14: in range `RDL` is a read of the limb that its indices name. -/
theorem rdlReadsOneLimb : Obligations.RdlReadsOneLimb := by
  intro s idx k
  refine ⟨congrArg some (pack_formatL_eq_or 0x2 idx k), fun hb => by simp [exec, execRdl, hb],
    exec_rdl_of_outOfRange, fun hs hb hi hk => ?_⟩
  have hslot : slotInRange s idx = true := decide_eq_true hi
  have hlimb : limbInRange s k = true := decide_eq_true hk
  obtain ⟨v, hv⟩ := hs.1.readLoc_element hslot hlimb
  exact ⟨v, hv, (exec_rdl_of_free hb hslot hlimb).trans (loadWord_of_readLoc hv)⟩

end Sys2Proof.Machine
end

-- ==== Field parameters (R82, R120 to R124) ====
section
/-! PROOFS. `WRQ`, `RDQ`, `WRQI` and `RDQI` are each a write or a read of one location, under the guards of `MODE` and of the
index; `COMMIT` is the one command that changes `MODE`, and only out of SETUP. -/

namespace Sys2Proof

/-- The word of a command with a limb index only (R82). -/
theorem pack_formatK_eq_or (op : BitVec 4) (k : Index) :
    pack op 0 k 0 = op.setWidth 32 <<< 28 ||| k.setWidth 32 <<< 12 := by
  simp [pack_eq_or]

end Sys2Proof

namespace Sys2Proof.Machine

variable {s t : State}

/-! ## Parameter commands that are ignored -/

theorem exec_wrq_of_ignored {k : Index} (hb : s.busy = false) (h : s.mode = .run ∨ s.cfg.w ≤ k.toNat) :
    exec (.wrq k) s = ignore s :=
  have hd : decode (pack 0x3 0 k 0) = .ok (.wrq k) := decode_of_encode rfl
  exec_of_ignoredCause hb hd (by simpa only [ignoredCause, hd] using h)

theorem exec_rdq_of_outOfRange {k : Index} (hb : s.busy = false) (h : s.cfg.w ≤ k.toNat) :
    exec (.rdq k) s = ignore s :=
  have hd : decode (pack 0x4 0 k 0) = .ok (.rdq k) := decode_of_encode rfl
  exec_of_ignoredCause hb hd (by simpa only [ignoredCause, hd] using h)

theorem exec_wrqi_of_run (hb : s.busy = false) (h : s.mode = .run) : exec .wrqi s = ignore s :=
  exec_of_ignoredCause (w := 0x50000000) hb rfl h

theorem exec_commit_of_run (hb : s.busy = false) (h : s.mode = .run) : exec .commit s = ignore s :=
  exec_of_ignoredCause (w := 0x70000000) hb rfl h

/-! ## The modulus -/

/-- A write of a limb of `Q` sets its mark, where there is one. -/
theorem State.Shaped.qWritten_of_writeLoc (hs : s.Shaped) {k : Nat} {v : Word} (h : writeLoc s (.q k) v = some t)
    (hk : k < s.cfg.w) : t.qWritten[k]? = some true := by
  obtain ⟨-, -, -, -, -, -, -, hlen⟩ := hs
  rw [writeLoc_q h]
  exact List.getElem?_set_self (hlen ▸ hk)

/-- A write of a limb of `Q` leaves every other limb, and its mark, as it was. -/
theorem modulus_frame_of_writeLoc {k j : Nat} {v : Word} (h : writeLoc s (.q k) v = some t) (hne : j ≠ k) :
    t.q[j]? = s.q[j]? ∧ t.qWritten[j]? = s.qWritten[j]? := by
  rw [writeLoc_q h]
  exact ⟨List.getElem?_set_ne hne.symm, List.getElem?_set_ne hne.symm⟩

/-- Settles O15: in SETUP mode and in range `WRQ` is a write of the limb that its index names, whose frame is that of
`writeLoc`. -/
theorem wrqWritesOneModulusLimbInSetup : Obligations.WrqWritesOneModulusLimbInSetup := by
  intro s k
  refine ⟨congrArg some (pack_formatK_eq_or 0x3 k), fun hb => by simp [exec, execWrq, hb], exec_wrq_of_ignored,
    fun hs hb hm hk => ?_⟩
  have hlimb : limbInRange s k = true := decide_eq_true hk
  obtain ⟨v, hv⟩ := hs.1.readLoc_modulus hlimb
  obtain ⟨t, ht⟩ := writeLoc_isSome_of_readLoc hv nofun s.wdata
  have hexec : exec (.wrq k) s = .next (t.respond 0) :=
    (exec_wrq_of_free hb hm hlimb).trans (storeWord_of_writeLoc ht)
  have hmark : t.qWritten[k.toNat]? = some true := hs.1.qWritten_of_writeLoc ht hk
  refine ⟨t.respond 0, hexec, readLoc_of_writeLoc ht, hmark, fun j hne => modulus_frame_of_writeLoc (t := t) ht hne, ?_⟩
  rw [writeLoc_q ht]
  rfl

/-- Settles O16: in range `RDQ` is a read of the limb that its index names. -/
theorem rdqReadsOneModulusLimb : Obligations.RdqReadsOneModulusLimb := by
  intro s k
  refine ⟨congrArg some (pack_formatK_eq_or 0x4 k), fun hb => by simp [exec, execRdq, hb], exec_rdq_of_outOfRange,
    fun hs hb hk => ?_⟩
  have hlimb : limbInRange s k = true := decide_eq_true hk
  obtain ⟨v, hv⟩ := hs.1.readLoc_modulus hlimb
  exact ⟨v, hv, (exec_rdq_of_free hb hlimb).trans (loadWord_of_readLoc hv)⟩

/-! ## `QINV0` and `MODE` -/

/-- Settles O17: in SETUP mode `WRQI` is a write of `QINV0`, which every state holds. -/
theorem wrqiWritesQinv0InSetup : Obligations.WrqiWritesQinv0InSetup :=
  ⟨rfl, fun s => ⟨fun hb => by simp [exec, execWrqi, hb], exec_wrqi_of_run, exec_wrqi_of_free⟩⟩

/-- Settles O18: `RDQI` is a read of `QINV0`, which every state holds. -/
theorem rdqiReadsQinv0 : Obligations.RdqiReadsQinv0 :=
  ⟨rfl, fun s => ⟨fun hb => by simp [exec, execRdqi, hb], exec_rdqi_of_free⟩⟩

/-- What `RDST` returns of a free block is decided by `MODE` (R40). -/
theorem statusWord_of_free (hb : s.busy = false) : statusWord s = if s.mode = .run then 2 else 0 := by
  cases hm : s.mode <;> simp [statusWord, modeBit, hb, hm]

/-- No instruction leaves RUN mode (R124, R129). -/
theorem exec_mode_of_run {i : Instr} (hm : s.mode = .run) (h : exec i s = .next t) : t.mode = .run := by
  obtain ⟨-, -, -, -, -, -, hmode, -⟩ := onlyTheListedWritersWrite i s t h
  by_cases heq : t.mode = s.mode
  · exact heq.trans hm
  · exact (hmode heq).2

/-- Settles O19: `COMMIT` sets `MODE`, and no writer of R30 sets it back. -/
theorem commitFreezesTheParameters : Obligations.CommitFreezesTheParameters := by
  refine ⟨rfl, fun s => ⟨fun hb => by simp [exec, execCommit, hb], exec_commit_of_run, fun hb hm => ?_,
    fun hm _ _ => exec_mode_of_run hm⟩⟩
  refine ⟨_, exec_commit_of_free hb hm, rfl, ?_, ?_⟩
  · rw [statusWord_of_free hb, hm]
    rfl
  · exact statusWord_of_free hb

end Sys2Proof.Machine
end

-- ==== The word `qInv0` (R128, R131) ====
section
/-! PROOFS. `lo64` of a product is the product in the ring of 64-bit words. There a round of the iteration squares the error
`1 - Q[0] * inv`, so `n` rounds from `inv = 1` leave `(1 - Q[0]) ^ (2 ^ n)`, which for an odd `Q[0]` has a factor `2 ^ 64` after
six rounds. -/

namespace Sys2Proof.Machine

theorem mulLo_eq_allOnes_iff {a b : Word} : mulLo a b = BitVec.ofNat 64 (2 ^ 64 - 1) ↔ a * b = -1 := by
  rw [mulLo, lo64_toNat_mul]
  rfl

/-! ## The iteration -/

/-- One round squares the error (R131). -/
theorem one_sub_mul_inverseRound (q0 inv : Word) : 1 - q0 * inverseRound q0 inv = (1 - q0 * inv) ^ 2 := by
  rw [inverseRound]
  ring

theorem one_sub_mul_repeat_inverseRound (q0 : Word) (n : Nat) :
    1 - q0 * Nat.repeat (inverseRound q0) n 1 = (1 - q0) ^ 2 ^ n := by
  induction n with
  | zero => simp [Nat.repeat]
  | succ n ih => rw [Nat.repeat, one_sub_mul_inverseRound, ih, ← pow_mul, ← pow_succ]

/-- The error before the first round is even for an odd word, so its 64th power is zero. -/
theorem one_sub_pow_eq_zero_of_odd {q0 : Word} (h : q0.toNat % 2 = 1) : (1 - q0) ^ 2 ^ 6 = 0 := by
  obtain ⟨k, hk⟩ : ∃ k : Word, 1 - q0 = 2 * k := ⟨-(q0 >>> 1), by bv_omega⟩
  have htwo : (2 : Word) ^ 2 ^ 6 = 0 := (BitVec.ofNat_pow 64 2 (2 ^ 6)).symm
  rw [hk, mul_pow, htwo, zero_mul]

theorem mul_qInv0Of_of_odd {q0 : Word} (h : q0.toNat % 2 = 1) : q0 * qInv0Of q0 = -1 := by
  have herr : 1 - q0 * Nat.repeat (inverseRound q0) 6 1 = 0 :=
    (one_sub_mul_repeat_inverseRound q0 6).trans (one_sub_pow_eq_zero_of_odd h)
  rw [qInv0Of]
  linear_combination herr

/-- Settles O36: six squarings of an even error leave zero; for `Q[0] = 3` five leave `(-2) ^ 32`, which is not zero. -/
theorem sixRoundsGiveQInv0 : Obligations.SixRoundsGiveQInv0 :=
  ⟨fun _ h => mulLo_eq_allOnes_iff.mpr (mul_qInv0Of_of_odd h), 3, by decide⟩

/-! ## Uniqueness -/

/-- Two words whose product with the same word is `-1` are equal. -/
theorem eq_of_mul_eq_neg_one {q0 v v' : Word} (h : q0 * v = -1) (h' : q0 * v' = -1) : v' = v := by
  linear_combination v' * h - v * h'

/-- A product of an even word is even: the base of `lo64` is. -/
theorem mulLo_toNat_mod_two {a : Word} (h : a.toNat % 2 = 0) (b : Word) : (mulLo a b).toNat % 2 = 0 := by
  have hbase : 2 ∣ limbBase := by decide
  rw [mulLo, lo64_toNat, Nat.mod_mod_of_dvd _ hbase, Nat.mul_mod, h, Nat.zero_mul]

/-- Settles O35: the iteration gives the word for an odd `Q[0]`; for an even one `2 ^ 64 - 1` would be even. -/
theorem qInv0IsUnique : Obligations.QInv0IsUnique := by
  intro q0
  refine ⟨fun hodd => ⟨qInv0Of q0, sixRoundsGiveQInv0.1 q0 hodd, fun v' hv' => ?_⟩, fun heven v hv => ?_⟩
  · exact eq_of_mul_eq_neg_one (mul_qInv0Of_of_odd hodd) (mulLo_eq_allOnes_iff.mp hv')
  · have hpar := mulLo_toNat_mod_two heven v
    rw [hv] at hpar
    exact absurd hpar (by decide)

end Sys2Proof.Machine
end

-- ==== Immutable parameters (R129) ====
section
/-! PROOFS. No instruction performed in RUN mode writes `Q`, `QINV0` or `MODE`, so no step but a reset does, and then no run; and
the invariant of a run from reset keeps a busy block in RUN mode. -/

namespace Sys2Proof.Machine

variable {s t : State}

/-! ## One step -/

/-- Two states with the same modulus, `QINV0` and `MODE`. -/
structure SameParameters (s t : State) : Prop where
  q : t.q = s.q
  qinv0 : t.qinv0 = s.qinv0
  mode : t.mode = s.mode

theorem SameParameters.trans {u : State} (h : SameParameters s t) (h' : SameParameters t u) : SameParameters s u :=
  ⟨h'.q.trans h.q, h'.qinv0.trans h.qinv0, h'.mode.trans h.mode⟩

/-- The instructions that write parameters do so in SETUP mode only, and `COMMIT` leads to RUN mode (R30). -/
theorem exec_sameParameters_of_run {i : Instr} (hm : s.mode = .run) (h : exec i s = .next t) : SameParameters s t := by
  have hnot : s.mode ≠ .setup := by simp [hm]
  obtain ⟨-, -, -, -, hq, hqinv0, -⟩ := onlyTheListedWritersWrite i s t h
  exact ⟨by_contra fun hne => hnot (hq hne).1, by_contra fun hne => hnot (hqinv0 hne).1,
    (exec_mode_of_run hm h).trans hm.symm⟩

theorem sameParameters_accept (s : State) (c : Command) (rest : List HostInput) :
    SameParameters s (s.quiet.accept c rest) :=
  ⟨rfl, rfl, rfl⟩

theorem sameParameters_consume (s : State) (rest : List HostInput) : SameParameters s (s.quiet.consume rest) :=
  ⟨rfl, rfl, rfl⟩

/-- A step in RUN mode that is no reset keeps the parameters: it performs an instruction, or changes the port only. -/
theorem step_sameParameters_of_run (hm : s.mode = .run) (hr : ∀ p rest, s.host ≠ .reset p :: rest)
    (h : step s = .next t) : SameParameters s t := by
  rcases step_cases s with ⟨p, rest, hh, -⟩ | ⟨c, rest, i, -, -, -, hs⟩ | ⟨c, rest, e, -, -, -, hs⟩ |
    ⟨gap, rest, -, hs⟩ | ⟨rest, -, hs⟩
  · exact absurd hh (hr p rest)
  · exact (sameParameters_accept s c rest).trans (exec_sameParameters_of_run hm (hs ▸ h))
  · obtain rfl := Host.Outcome.next.inj (hs.symm.trans h)
    exact ⟨rfl, rfl, rfl⟩
  · exact (sameParameters_accept s pollCommand _).trans (exec_sameParameters_of_run hm (hs ▸ h))
  · rw [hs] at h
    rcases sequencerAction_cases (s.quiet.consume rest) with ⟨-, ha⟩ | ⟨i, -, ha⟩ <;> rw [ha] at h
    · obtain rfl := Host.Outcome.next.inj h
      exact ⟨rfl, rfl, rfl⟩
    · exact (sameParameters_consume s rest).trans (exec_sameParameters_of_run hm h)

/-! ## Runs -/

/-- A run of `n + 1` steps is a step and a run of `n` steps. -/
theorem exists_step_of_run_succ {n : Nat} (h : Host.Core.run Sys2Proof.core (n + 1) s = .next t) :
    ∃ u, step s = .next u ∧ Host.Core.run Sys2Proof.core n u = .next t := by
  cases hs : step s with
  | next u => exact ⟨u, rfl, (run_succ_of_step hs n).symm.trans h⟩
  | fault | refused =>
    have hcore : Sys2Proof.core.step s = _ := hs
    simp [Host.Core.run, hcore] at h

theorem run_sameParameters_of_run {n : Nat} (hm : s.mode = .run)
    (hr : ∀ k, k < n → ∀ v, Host.Core.run Sys2Proof.core k s = .next v → ∀ p r, v.host ≠ .reset p :: r)
    (h : Host.Core.run Sys2Proof.core n s = .next t) : SameParameters s t := by
  induction n generalizing s with
  | zero =>
    obtain rfl := Host.Outcome.next.inj h
    exact ⟨rfl, rfl, rfl⟩
  | succ n ih =>
    obtain ⟨u, hstep, hrun⟩ := exists_step_of_run_succ h
    have hfirst := step_sameParameters_of_run hm (hr 0 n.succ_pos s rfl) hstep
    have hrest := ih (hfirst.mode.trans hm)
      (fun k hk v hv => hr (k + 1) (Nat.succ_lt_succ hk) v ((run_succ_of_step hstep k).trans hv)) hrun
    exact hfirst.trans hrest

/-- Every step of a run keeps the invariant, so the run does. -/
theorem run_inv {n : Nat} (hs : s.Inv) (h : Host.Core.run Sys2Proof.core n s = .next t) : t.Inv := by
  induction n generalizing s with
  | zero => exact Host.Outcome.next.inj h ▸ hs
  | succ n ih =>
    obtain ⟨u, hstep, hrun⟩ := exists_step_of_run_succ h
    exact ih (stepKeepsTheInvariant s u hs hstep).1 hrun

/-- Settles O41: the parameters by induction on the steps, `MODE` of a busy block by the invariant. -/
theorem parametersAreImmutableInRun : Obligations.ParametersAreImmutableInRun := by
  refine ⟨fun n s t hm hr h => ?_, fun n cfg inputs t hcfg h hb => ?_⟩
  · have hsame := run_sameParameters_of_run hm hr h
    exact ⟨hsame.q, hsame.qinv0, hsame.mode.trans hm⟩
  · have hinv : ({ State.resetWith cfg with host := inputs } : State).Inv := resetWith_inv hcfg
    exact (run_inv hinv h).mode_of_busy hb

end Sys2Proof.Machine
end

-- ==== Every step of a whole `MUL` (R91, R146, R158) ====
section
/-! PROOFS. `completes_of_busy` gives the run of a `MUL`. Where the host has nothing more to present or presents a command that is
held, every step of it is the sequencer's and leaves the host's inputs as they are, so the run takes as many steps as the
sequencer does. -/

namespace Sys2Proof.Machine

/-- The host has nothing more to present, or its next command is one that a busy block holds (R91). -/
def HeldWhileBusy (inputs : List HostInput) : Prop :=
  inputs = [] ∨ ∃ c rest, inputs = .command c :: rest ∧ acceptedWhileBusy c.cmd = false

variable {s t : State}

/-- A busy block leaves such inputs as they are. -/
theorem HeldWhileBusy.passes (h : HeldWhileBusy s.host) (hb : s.busy = true) : Passes s s.host := by
  rcases h with hh | ⟨c, rest, hh, hw⟩
  · exact .inl ⟨hh, hh⟩
  · have hr : cmdReady s c.cmd = false := by simp [cmdReady, hb, hw]
    exact hh ▸ passes_of_held hh hr

/-- The steps that the `MUL` in progress has left are then the next ones. -/
theorem run_of_heldWhileBusy {k : Nat} (hs : s.Inv) (hh : HeldWhileBusy s.host) (hk : k ≤ s.stepsLeft) :
    ∃ t, Host.Core.run Sys2Proof.core k s = .next t ∧ t.Inv ∧ t.host = s.host ∧ t.stepsLeft = s.stepsLeft - k := by
  induction k generalizing s with
  | zero => exact ⟨s, rfl, hs, rfl, rfl⟩
  | succ k ih =>
    have hb : s.busy = true := by
      rw [← Bool.not_eq_false, ← stepsLeft_eq_zero_iff hs]
      omega
    obtain ⟨t, hstep, ht, -, hth, -, hless⟩ := (hh.passes hb).step_next hs
    obtain ⟨u, hrun, hu, huh, hleft⟩ := ih ht (hth ▸ hh) (by omega)
    exact ⟨u, (run_succ_of_step hstep k).trans hrun, hu, huh.trans hth, by omega⟩

/-- A block that is free after `n` steps and busy before has taken the steps its `MUL` had left, with the host's inputs as they
were. -/
theorem busyThroughout.eq_stepsLeft {u : State} {n : Nat} (h : busyThroughout n s) (hs : s.Inv)
    (hh : HeldWhileBusy s.host) (hu : Host.Core.run Sys2Proof.core n s = .next u) (hf : u.busy = false) :
    n = s.stepsLeft ∧ u.host = s.host := by
  have hle : n ≤ s.stepsLeft := by
    obtain ⟨v, hv, hvi, -, hleft⟩ := run_of_heldWhileBusy hs hh le_rfl
    rw [Nat.sub_self, stepsLeft_eq_zero_iff hvi] at hleft
    exact h.le_of_free hv hleft
  obtain ⟨v, hv, hvi, hvh, hleft⟩ := run_of_heldWhileBusy hs hh hle
  obtain rfl : u = v := Host.Outcome.next.inj (hu.symm.trans hv)
  rw [(stepsLeft_eq_zero_iff hvi).mpr hf] at hleft
  exact ⟨by omega, hvh⟩

/-- Settles O37: the run completes the started `MUL`, whose `3W + 1` steps left are the next ones where nothing is accepted. -/
theorem mulCompletesAfterAllItsSteps : Obligations.MulCompletesAfterAllItsSteps := by
  intro s zd xs ys x y hs hl hb hm hz hx hy hsx hsy
  have hinv := started_inv hs hm hx hy hz
  obtain ⟨n, u, hbefore, hrun, hcount, hdone⟩ := completes_of_busy _ _ hinv rfl rfl hl
  obtain ⟨-, -, -, hq, -⟩ := hs.1
  have hbusy : busyThroughout n ((s.start zd xs ys).respond 0) := fun k hk => by
    obtain ⟨v, hv, hvb, -⟩ := hbefore k hk
    exact ⟨v, hv, hvb⟩
  refine ⟨n, _, u, exec_mul_started hb hm hz hx hy, fun k hk => ?_, hrun, hcount, hdone.busy, hdone.ph, ?_, hdone.q,
    hdone.qinv0, hdone.mode.trans hm, fun hh => hbusy.eq_stepsLeft hinv hh hrun hdone.busy⟩
  · obtain ⟨v, hv, hvb, hsame⟩ := hbefore k hk
    exact ⟨v, hv, hvb, hsame.e, hsame.q, hsame.qinv0, hsame.mode.trans hm⟩
  · rw [hdone.e, almostReduced_start hq hsx hsy]
    rfl

end Sys2Proof.Machine
end

-- ==== Every host program ends (R24, R94, R146, R246) ====
section
/-! PROOFS. Each input of the host is used up within the steps that `inputSteps` gives it: a command is held for the steps of one
`MUL` at most, and `WAIT` ends. Then nothing is left but the `MUL` in progress, and a final block stays final. -/

namespace Sys2Proof.Machine

variable {s t : State}

/-- A state that meets the invariant has a next state (R200): it steps in parallel with itself. -/
theorem State.Inv.exists_step (hs : s.Inv) : ∃ t, step s = .next t := by
  obtain ⟨t, -, hstep, -⟩ := (SameWritten.refl s).outcome_step hs hs
  exact ⟨t, hstep⟩

theorem Accepts.host {c : Command} {after : List HostInput} (h : Accepts s c after) (hstep : step s = .next t) :
    t.host = after := by
  rw [step, h.action] at hstep
  rcases acceptedAction_cases (s := s.quiet.accept c after) h.ready with ⟨i, -, -, ha⟩ | ha <;> rw [ha] at hstep
  · obtain ⟨-, hhost, -⟩ := onlyTheListedWritersWrite i _ t hstep
    exact hhost
  · exact Host.Outcome.next.inj hstep ▸ rfl

theorem run_cfg {n : Nat} (hs : s.Inv) (h : Host.Core.run Sys2Proof.core n s = .next t) : t.cfg = s.cfg := by
  induction n generalizing s with
  | zero => exact Host.Outcome.next.inj h ▸ rfl
  | succ n ih =>
    obtain ⟨u, hstep, hrun⟩ := exists_step_of_run_succ h
    obtain ⟨hu, hcfg⟩ := stepKeepsTheInvariant s u hs hstep
    exact (ih hu hrun).trans hcfg

/-! ## One input -/

/-- Within so many steps the host has only `rest` left to do. -/
def UsesUpInput (bound : Nat) (rest : List HostInput) (s : State) : Prop :=
  ∃ n t, n ≤ bound ∧ Host.Core.run Sys2Proof.core n s = .next t ∧ t.host = rest

theorem usesUpInput_of_step {rest : List HostInput} (hstep : step s = .next t) (hh : t.host = rest) :
    UsesUpInput 1 rest s :=
  ⟨1, t, le_rfl, run_succ_of_step hstep 0, hh⟩

/-- A command is accepted when it becomes ready, at the end of the `MUL` in progress at the latest (R91). -/
theorem usesUpInput_command {c : Command} {rest : List HostInput} (hs : s.Inv) (hh : s.host = .command c :: rest) :
    UsesUpInput (3 * s.cfg.w + 2) rest s := by
  obtain ⟨n, t, hn, hrun, hth, hready⟩ := becomes_ready _ hs hh (stepsLeft_le s)
  obtain ⟨u, hstep⟩ := (run_inv hs hrun).exists_step
  have hlast : Host.Core.run Sys2Proof.core 1 t = .next u := run_succ_of_step hstep 0
  exact ⟨n + 1, u, Nat.succ_le_succ hn, (run_add_of_run hrun).trans hlast,
    Accepts.host (.inl ⟨hth.trans hh, hready⟩) hstep⟩

/-- `WAIT` polls once more than the steps of a `MUL` at most (R94, R146). -/
theorem usesUpInput_wait {gap left : Nat} {rest : List HostInput} (hs : s.Inv) (hh : s.host = .wait gap left :: rest) :
    UsesUpInput (left + (gap + 2) * (3 * s.cfg.w + 2)) rest s := by
  have hleft : s.stepsLeft ≤ 3 * s.cfg.w + 1 + left := (stepsLeft_le s).trans (Nat.le_add_right _ _)
  obtain ⟨n, t, -, hn, hdone⟩ := waitEnds_of_left (fun _ hu => waitEnds_of_poll _ hu) hs hh hleft
  refine ⟨n, t, hn.trans ?_, hdone.run, hdone.host⟩
  rw [Nat.mul_succ (gap + 2) (3 * s.cfg.w + 1)]
  omega

/-- Every input is used up within its steps. -/
theorem usesUpInput_of_inv {input : HostInput} {rest : List HostInput} (hs : s.Inv) (hh : s.host = input :: rest) :
    UsesUpInput (inputSteps s.cfg.w input) rest s := by
  cases input with
  | command c => exact usesUpInput_command hs hh
  | idle =>
    obtain ⟨t, hstep, -, -, hth, -⟩ := Passes.step_next (.inr (.inl hh)) hs
    exact usesUpInput_of_step hstep hth
  | wait gap left => exact usesUpInput_wait hs hh
  | reset p => exact usesUpInput_of_step (step_of_reset hh) rfl

/-! ## All inputs -/

/-- With no more inputs the block is final after the steps that the `MUL` in progress has left, and stays so. -/
theorem run_final_of_no_inputs (d : Nat) (hs : s.Inv) (hh : s.host = []) (hd : s.stepsLeft ≤ d) :
    ∃ t, Host.Core.run Sys2Proof.core d s = .next t ∧ t.Final := by
  induction d generalizing s with
  | zero => exact ⟨s, rfl, (stepsLeft_eq_zero_iff hs).mp (Nat.le_zero.mp hd), hh⟩
  | succ d ih =>
    obtain ⟨t, hstep, ht, -, hth, -, hless⟩ := Passes.step_next (.inl ⟨hh, rfl⟩) hs
    obtain ⟨u, hrun, hfinal⟩ := ih ht hth (by omega)
    exact ⟨u, (run_succ_of_step hstep d).trans hrun, hfinal⟩

theorem run_final (inputs : List HostInput) (d : Nat) (hs : s.Inv) (hh : s.host = inputs)
    (hd : (inputs.map (inputSteps s.cfg.w)).sum + (3 * s.cfg.w + 1) ≤ d) :
    ∃ t, Host.Core.run Sys2Proof.core d s = .next t ∧ t.Final := by
  induction inputs generalizing s d with
  | nil => exact run_final_of_no_inputs d hs hh ((stepsLeft_le s).trans (by simpa using hd))
  | cons input rest ih =>
    obtain ⟨n, t, hn, hrun, hth⟩ := usesUpInput_of_inv hs hh
    rw [List.map_cons, List.sum_cons] at hd
    obtain ⟨m, rfl⟩ := Nat.exists_eq_add_of_le (show n ≤ d by omega)
    obtain ⟨u, hrest, hfinal⟩ := ih m (run_inv hs hrun) hth (by rw [run_cfg hs hrun]; omega)
    exact ⟨u, (run_add_of_run hrun).trans hrest, hfinal⟩

/-- Settles O49: by induction on the host's inputs. -/
theorem everyHostProgramEnds : Obligations.EveryHostProgramEnds :=
  fun s hs => run_final s.host _ hs rfl (Nat.add_le_add_left (Nat.le_succ _) _)

end Sys2Proof.Machine
end

-- ==== The passes limb by limb (R151, R153, R154) ====
section
/-! PROOFS. The carry before round `j` of a chain is the carry out of the chain's first `j` rounds. A round is then the model's own
recurrence, by induction on the limbs before it, and `MAC` and `RED` are read off the chain. -/

namespace Sys2Proof.Machine

/-- The carry word before round `j` of the chain. -/
def chainCarry (t x : Limbs) (k carry : Word) (j : Nat) : Word := (mulAddChain (t.take j) (x.take j) k carry).2

@[simp] theorem chainCarry_zero (t x : Limbs) (k carry : Word) : chainCarry t x k carry 0 = carry := rfl

theorem chainCarry_cons_succ (t0 x0 : Word) (ts xs : Limbs) (k carry : Word) (j : Nat) :
    chainCarry (t0 :: ts) (x0 :: xs) k carry (j + 1) =
      chainCarry ts xs k (hi64 (t0.toNat + x0.toNat * k.toNat + carry.toNat)) j := rfl

/-- After all rounds it is the carry out. -/
theorem chainCarry_length {t x : Limbs} {n : Nat} (ht : t.length = n) (hx : x.length = n) (k carry : Word) :
    chainCarry t x k carry n = (mulAddChain t x k carry).2 := by
  rw [chainCarry, List.take_of_length_le ht.le, List.take_of_length_le hx.le]

/-- Round `j` of the chain: its limb is the low word of the round's sum, and the carry after it the high word (R151, R154). -/
theorem mulAddChain_round {t x : Limbs} {j : Nat} {tj xj : Word} (k carry : Word) (ht : t[j]? = some tj)
    (hx : x[j]? = some xj) :
    (mulAddChain t x k carry).1[j]? =
      some (lo64 (tj.toNat + xj.toNat * k.toNat + (chainCarry t x k carry j).toNat)) ∧
    chainCarry t x k carry (j + 1) = hi64 (tj.toNat + xj.toNat * k.toNat + (chainCarry t x k carry j).toNat) := by
  induction t generalizing x j carry with
  | nil => exact nomatch ht
  | cons t0 ts ih => cases x with
    | nil => exact nomatch hx
    | cons x0 xs => cases j with
      | zero =>
        obtain rfl := Option.some.inj ht
        obtain rfl := Option.some.inj hx
        exact ⟨rfl, rfl⟩
      | succ j => exact ih _ ht hx

/-- "`v` never exceeds 128 bits" (R151). -/
theorem mulAdd_le (t x k carry : Word) : t.toNat + x.toNat * k.toNat + carry.toNat ≤ 2 ^ 128 - 1 :=
  Nat.le_sub_one_of_lt (mulAdd_lt t x k carry)

/-- Settles O22: `MAC` is one chain over all limbs, from carry 0. -/
theorem macAccumulatesLimbByLimb : Obligations.MacAccumulatesLimbByLimb := by
  intro s hs hp
  obtain ⟨x, yi, hx, hxl, hy, hexec⟩ := exec_mac_of_inv hs hp
  obtain ⟨-, -, -, -, htl, -⟩ := hs.1
  refine ⟨x, yi, (macFn s.t x yi).1, chainCarry s.t x yi 0, hx, hy, ?_, ?_, rfl, fun j hj => ?_⟩
  · rw [hexec, chainCarry_length htl hxl]
    rfl
  · rw [macFn_length, htl, hxl, Nat.min_self]
  · have htj := List.getElem?_eq_getElem (htl.symm ▸ hj)
    have hxj := List.getElem?_eq_getElem (hxl.symm ▸ hj)
    exact ⟨_, _, htj, hxj, mulAdd_le _ _ _ _, mulAddChain_round yi 0 htj hxj⟩

/-- Settles O24: `QUOT` takes the low word of the product. -/
theorem quotTakesTheQuotientDigit : Obligations.QuotTakesTheQuotientDigit := by
  intro s hs hp
  obtain ⟨t0, ts, -, -, ht, -⟩ := hs.1.exists_lowest_limbs
  refine ⟨t0, quotientDigit t0 s.qinv0, by rw [ht]; rfl, lo64_toNat _, ?_⟩
  rw [exec_quot_of_inv hs hp, ht, List.headD_cons]

/-- The carry `C` out of the low word that `RED` drops (R154). -/
def droppedCarry (t0 q0 m : Word) : Word := hi64 (t0.toNat + m.toNat * q0.toNat)

/-- `RED` is a chain over the limbs above the lowest, with the Shift on top (R154). -/
theorem redFn_cons (t0 q0 m a : Word) (ts qs : Limbs) :
    redFn (t0 :: ts) m (q0 :: qs) a =
      ((mulAddChain ts qs m (droppedCarry t0 q0 m)).1 ++ [shiftLimb (mulAddChain ts qs m (droppedCarry t0 q0 m)).2 a],
        (mulAddChain ts qs m (droppedCarry t0 q0 m)).2) := rfl

section Red

variable {t0 q0 m a : Word} {ts qs : Limbs} (hl : ts.length = qs.length)
include hl

theorem mulAddChain_length_of_eq (k carry : Word) : (mulAddChain ts qs k carry).1.length = ts.length := by
  rw [mulAddChain_length, hl, Nat.min_self]

/-- A round of `RED` leaves its low word one limb down and its high word in `C` (R154). -/
theorem redFn_round {j : Nat} {tj qj : Word} (ht : ts[j]? = some tj) (hq : qs[j]? = some qj) :
    tj.toNat + m.toNat * qj.toNat + (chainCarry ts qs m (droppedCarry t0 q0 m) j).toNat ≤ 2 ^ 128 - 1 ∧
    (redFn (t0 :: ts) m (q0 :: qs) a).1[j]? =
      some (lo64 (tj.toNat + m.toNat * qj.toNat + (chainCarry ts qs m (droppedCarry t0 q0 m) j).toNat)) ∧
    chainCarry ts qs m (droppedCarry t0 q0 m) (j + 1) =
      hi64 (tj.toNat + m.toNat * qj.toNat + (chainCarry ts qs m (droppedCarry t0 q0 m) j).toNat) := by
  obtain ⟨hj, -⟩ := List.getElem?_eq_some_iff.mp ht
  rw [redFn_cons, List.getElem?_append_left (mulAddChain_length_of_eq hl m _ ▸ hj), Nat.mul_comm m.toNat]
  exact ⟨mulAdd_le _ _ _ _, mulAddChain_round m _ ht hq⟩

/-- The Shift writes the top limb (R156). -/
theorem redFn_top : (redFn (t0 :: ts) m (q0 :: qs) a).1[ts.length]? =
    some (shiftLimb (redFn (t0 :: ts) m (q0 :: qs) a).2 a) := by
  rw [redFn_cons, ← mulAddChain_length_of_eq hl m (droppedCarry t0 q0 m), List.getElem?_concat_length]

end Red

/-- Settles O25: `RED` is a chain over the limbs above the lowest, whose results move down by one limb. -/
theorem redReducesAndShifts : Obligations.RedReducesAndShifts := by
  intro s hs hp
  obtain ⟨t0, ts, q0, qs, ht, hq, htl, hql⟩ := hs.1.exists_lowest_limbs
  have hl : ts.length = qs.length := Nat.succ.inj (htl.trans hql.symm)
  have hexec := exec_red_of_inv hs hp
  have hlen := redFn_length s.t s.q s.m s.a (ht ▸ List.cons_ne_nil t0 ts) (hq ▸ List.cons_ne_nil q0 qs)
  rw [ht, hq] at hexec hlen ⊢
  have hcarry : chainCarry ts qs s.m (droppedCarry t0 q0 s.m) (s.cfg.w - 1) =
      (redFn (t0 :: ts) s.m (q0 :: qs) s.a).2 := chainCarry_length (by omega) (by omega) _ _
  have hw : s.cfg.w - 1 = ts.length := by omega
  refine ⟨(redFn (t0 :: ts) s.m (q0 :: qs) s.a).1, chainCarry ts qs s.m (droppedCarry t0 q0 s.m), t0, q0, rfl, rfl, rfl,
    ?_, ?_, fun j h1 hj => ?_, ?_⟩
  · rw [hexec, hcarry]
    rfl
  · rw [hlen, List.length_cons, List.length_cons, htl, hql, Nat.min_self]
  · obtain ⟨j, rfl⟩ := Nat.exists_eq_add_of_le' h1
    have htj := List.getElem?_eq_getElem (show j < ts.length by omega)
    have hqj := List.getElem?_eq_getElem (show j < qs.length by omega)
    exact ⟨_, _, htj, hqj, redFn_round hl htj hqj⟩
  · rw [hcarry, hw]
    exact redFn_top hl

end Sys2Proof.Machine
end

-- ==== The passes are exact (R152, R155, R157) ====
section
/-! PROOFS. `RED` before the Shift is exact, so its limbs and its carry are the quotient by the limb base; the Shift adds `A` to the
carry modulo the limb base, which is the unwrapped value modulo `radix w`. -/

namespace Sys2Proof.Machine

/-- Settles O23: the chain of `MAC` is an exact sum. -/
theorem macIsExact : Obligations.MacIsExact := by
  intro t x yi h
  have hval := val_macFn t x yi h
  rw [h, Nat.mul_comm (radix _)] at hval
  exact ⟨by rw [macFn_length, h, Nat.min_self], hval⟩

/-- Settles O26: the quotient digit times `Q[0]` is the negative of the low word. -/
theorem droppedWordIsZero : Obligations.DroppedWordIsZero :=
  fun t0 q0 qinv0 h => lo64_quotientDigit t0 q0 qinv0 h

/-- The value of `RED`'s limbs before the Shift, then its carry `C`: the quotient of what it accumulates by the limb base. -/
theorem val_redFn_dropLast {w : Nat} {t q : Limbs} (m a : Word) (ht : t.length = w + 1) (hq : q.length = w + 1) :
    val (redFn t m q a).1.dropLast + radix w * (redFn t m q a).2.toNat = (val t + m.toNat * val q) / limbBase := by
  obtain ⟨t0, ts, rfl⟩ := List.exists_cons_of_length_eq_add_one ht
  obtain ⟨q0, qs, rfl⟩ := List.exists_cons_of_length_eq_add_one hq
  obtain rfl : ts.length = w := Nat.succ.inj ht
  rw [← val_redFn_before_shift t0 q0 m a ts qs (Nat.succ.inj hq).symm, limb_add_mul_div_limbBase]

/-- The value of `RED`'s limbs after the Shift: the carry `C + A` on top, modulo the limb base (R156). -/
theorem val_redFn_shift {w : Nat} {t q : Limbs} (m a : Word) (ht : t.length = w + 1) (hq : q.length = w + 1) :
    val (redFn t m q a).1 =
      val (redFn t m q a).1.dropLast + radix w * (((redFn t m q a).2.toNat + a.toNat) % limbBase) := by
  obtain ⟨t0, ts, rfl⟩ := List.exists_cons_of_length_eq_add_one ht
  obtain ⟨q0, qs, rfl⟩ := List.exists_cons_of_length_eq_add_one hq
  obtain rfl : ts.length = w := Nat.succ.inj ht
  exact val_redFn t0 q0 m a ts qs (Nat.succ.inj hq).symm

theorem val_redFn_dropLast_lt {w : Nat} {t q : Limbs} (m a : Word) (ht : t.length = w + 1) (hq : q.length = w + 1) :
    val (redFn t m q a).1.dropLast < radix w := by
  have hlt := val_lt_radix (redFn t m q a).1.dropLast
  rwa [List.length_dropLast, redFn_length _ _ _ _ (List.ne_nil_of_length_eq_add_one ht)
    (List.ne_nil_of_length_eq_add_one hq), ht, hq, Nat.min_self] at hlt

theorem add_radix_mul_mod {v w n : Nat} (hv : v < radix w) :
    (v + radix w * n) % radix (w + 1) = v + radix w * (n % limbBase) := by
  have hpos : 0 < radix w := Nat.zero_lt_of_lt hv
  rw [radix_succ, Nat.mul_comm limbBase, Nat.mod_mul, Nat.add_mul_mod_self_left, Nat.mod_eq_of_lt hv,
    Nat.add_mul_div_left _ _ hpos, Nat.div_eq_of_lt hv, Nat.zero_add]

/-- `MAC` and then the sum of `RED`: with `A` on top, what the limb base divides is the whole accumulation (R157). -/
theorem div_limbBase_of_macFn {w : Nat} {tb x t : Limbs} {yi a : Word} (htb : tb.length = w + 1) (hx : x.length = w + 1)
    (hmac : macFn tb x yi = (t, a)) (n : Nat) :
    (val t + n) / limbBase + a.toNat * radix w = (val tb + val x * yi.toNat + n) / limbBase := by
  have hval := val_macFn tb x yi (htb.trans hx.symm)
  rw [hmac, htb, radix_succ] at hval
  rw [← hval, ← Nat.add_mul_div_left _ _ limbBase_pos]
  congr 1
  ring

/-- Settles O27: before the Shift `RED` is a division by the limb base, and the Shift keeps the value modulo `radix w`. -/
theorem redIsExactUpToTheShift : Obligations.RedIsExactUpToTheShift := by
  intro w t q m a hw ht hq
  obtain ⟨w, rfl⟩ := Nat.exists_eq_add_of_le' hw
  have hquot := val_redFn_dropLast m a ht hq
  have hshift := val_redFn_shift m a ht hq
  have hlow := val_redFn_dropLast_lt m a ht hq
  have hc := limb_lt_limbBase (redFn t m q a).2
  have ha := limb_lt_limbBase a
  generalize redFn t m q a = r at hquot hshift hlow hc ⊢
  have hunwrapped : (val t + m.toNat * val q) / limbBase + a.toNat * radix w =
      val r.1.dropLast + radix w * (r.2.toNat + a.toNat) := by
    rw [← hquot]
    ring
  rw [Nat.add_sub_cancel]
  refine ⟨by rw [← hquot, Nat.mul_comm], ?_, ?_, ?_, fun tb x yi htb hx hmac => div_limbBase_of_macFn htb hx hmac _⟩
  · rw [hunwrapped, add_radix_mul_mod hlow, hshift]
  · rw [hunwrapped, hshift, Nat.add_right_inj, Nat.mul_right_inj (Nat.zero_lt_of_lt hlow).ne',
      Nat.mod_eq_iff_lt limbBase_pos.ne']
  · calc (val t + m.toNat * val q) / limbBase + a.toNat * radix w
        = val r.1.dropLast + radix w * (r.2.toNat + a.toNat) := hunwrapped
      _ < radix w * (r.2.toNat + a.toNat + 1) := by rw [Nat.mul_succ]; omega
      _ ≤ radix w * (2 * limbBase) := Nat.mul_le_mul_left _ (by omega)
      _ = 2 * radix (w + 1) := by rw [radix_succ]; ring

end Sys2Proof.Machine
end

-- ==== The dual carry chains (R160, R161) ====
section
/-! PROOFS. A round of the dual chain splits the round's sum differently: what its two carries and the high half of the product come
to is the single chain's carry. So the two chains agree, by induction on the limbs, with the three as one carry word. -/

namespace Sys2Proof.Machine

@[simp] theorem lo64_toNat_lo64 (v : Nat) : lo64 (lo64 v).toNat = lo64 v := by
  rw [lo64, lo64, BitVec.ofNat_toNat, BitVec.setWidth_eq]

/-- The low word of a round's sum (R160). -/
theorem lo64_add_add (v p c : Nat) : lo64 ((lo64 v).toNat + (lo64 p).toNat + c) = lo64 (v + p + c) := by
  simp only [lo64_add, lo64_toNat_lo64]

/-- The high word of a round's sum, from the high half of the product and the two carries (R160). -/
theorem hi64_add_add {v p c : Nat} (h : v + p + c < 2 ^ 128) :
    (hi64 (v + p + c)).toNat =
      (hi64 p).toNat + v / limbBase + ((lo64 v).toNat + (lo64 p).toNat + c) / limbBase := by
  rw [hi64_toNat _ h, hi64_toNat p (by omega), lo64_toNat, lo64_toNat]
  simp only [limbBase]
  omega

/-- The dual chain is the single chain whose carry is the high half and the two carries together (R161). -/
theorem dualChain_eq (t x : Limbs) (k h carry : Word) (cL cH : Nat) (hc : carry.toNat = h.toNat + cH + cL) :
    dualChain t x k h cL cH = ((mulAddChain t x k carry).1, (mulAddChain t x k carry).2.toNat) := by
  induction t generalizing x h carry cL cH with
  | nil => simp [dualChain, mulAddChain, hc]
  | cons t0 ts ih => cases x with
    | nil => simp [dualChain, mulAddChain, hc]
    | cons x0 xs =>
      have hsum : t0.toNat + x0.toNat * k.toNat + carry.toNat =
          t0.toNat + h.toNat + cH + x0.toNat * k.toNat + cL := by rw [hc]; ring
      have hnext := hi64_add_add (hsum ▸ mulAdd_lt t0 x0 k carry)
      simp only [dualChain, mulAddChain, hsum, ih xs _ _ _ _ hnext, lo64_add_add]

/-- The first round of a pass has no carry yet: its product's high half and the one carry of its low half (R160). -/
theorem hi64_limb_add (t0 a b : Word) :
    (hi64 (t0.toNat + a.toNat * b.toNat)).toNat =
      (hi64 (a.toNat * b.toNat)).toNat + 0 + (t0.toNat + (lo64 (a.toNat * b.toNat)).toNat) / limbBase := by
  have hlt : t0.toNat + a.toNat * b.toNat + 0 < 2 ^ 128 := mulAdd_lt t0 a b 0
  have hround := hi64_add_add hlt
  rwa [Nat.div_eq_of_lt (limb_lt_limbBase t0), lo64_toNat t0.toNat, Nat.mod_eq_of_lt (limb_lt_limbBase t0)] at hround

theorem macDual_eq (t x : Limbs) (yi : Word) : macDual t x yi = ((macFn t x yi).1, (macFn t x yi).2.toNat) := by
  match t, x with
  | [], _ => rfl
  | _ :: _, [] => rfl
  | t0 :: ts, x0 :: xs =>
    have hchain := dualChain_eq ts xs yi _ _ _ _ (hi64_limb_add t0 x0 yi)
    simp [macDual, macFn, mulAddChain, hchain, lo64_add]

theorem redDual_eq (t0 q0 m a : Word) (ts qs : Limbs) :
    redDual (t0 :: ts) m (q0 :: qs) =
      ((redFn (t0 :: ts) m (q0 :: qs) a).1.dropLast, (redFn (t0 :: ts) m (q0 :: qs) a).2.toNat) := by
  rw [redFn_cons, List.dropLast_concat]
  exact dualChain_eq ts qs m _ _ _ _ (hi64_limb_add t0 m q0)

/-- Settles O31: each pass is a first round and a chain, and the two chains agree. -/
theorem dualChainsAgreeWithSingleChain : Obligations.DualChainsAgreeWithSingleChain := by
  refine ⟨fun t x yi => by rw [macDual_eq]; exact ⟨rfl, rfl⟩, fun t q m a ht hq => ?_⟩
  obtain ⟨t0, ts, rfl⟩ := List.exists_cons_of_ne_nil ht
  obtain ⟨q0, qs, rfl⟩ := List.exists_cons_of_ne_nil hq
  rw [redDual_eq t0 q0 m a, redFn_cons, List.dropLast_concat]
  exact ⟨rfl, rfl⟩

end Sys2Proof.Machine
end

-- ==== `Core` and `MontMul` on any limb vectors (R158, R163, R168) ====
section
/-! PROOFS. The bound of `Core` is that of its loop. In contract the product is the one reduced number whose `R`-fold is congruent to
`x * y`, and the corner cases follow, since `R`, a power of 2, can be cancelled modulo an odd `Qv`. A zero source keeps the
accumulator zero in every iteration, whatever the parameters. -/

namespace Sys2Proof.Machine

/-- Settles O32: the loop keeps the bound and the congruence. -/
theorem almostReducedValueIsBounded : Obligations.AlmostReducedValueIsBounded := by
  rintro w x y q qinv0 hw hx hy ⟨rfl, hodd, -, -, hinv⟩ hfit
  obtain ⟨-, hlt, hmod⟩ := val_coreFn hx (List.ne_nil_of_length_pos hw) hinv hfit (by omega) y
  rw [hy, Nat.mul_comm] at hmod
  exact ⟨hlt, hmod⟩

/-! ## Lengths -/

theorem foldl_coreIteration_length {x q : Limbs} {qinv0 : Word} (hx : x.length = q.length) (hne : q ≠ []) (y : Limbs)
    {t : Limbs} (ht : t.length = q.length) : (y.foldl (coreIteration x q qinv0) t).length = q.length := by
  induction y generalizing t with
  | nil => exact ht
  | cons yi ys ih => exact ih (coreIteration_length hx hne ht yi)

theorem coreFn_length {x q : Limbs} (hx : x.length = q.length) (hne : q ≠ []) (y : Limbs) (qinv0 : Word) :
    (coreFn x y q qinv0).length = q.length :=
  foldl_coreIteration_length hx hne y List.length_replicate

theorem montMul_length {x q : Limbs} (hx : x.length = q.length) (hne : q ≠ []) (y : Limbs) (qinv0 : Word) :
    (montMul x y q qinv0).length = q.length := by
  rw [montMul, fred_length _ _ (coreFn_length hx hne y qinv0), coreFn_length hx hne]

/-- Limb vectors of the same length with the same value are equal (R17). -/
theorem eq_of_val_eq {v v' : Limbs} (hl : v.length = v'.length) (h : val v = val v') : v = v' := by
  rw [← limbsOf_val v, ← limbsOf_val v', hl, h]

/-! ## A zero source -/

/-- `RED` keeps a zero accumulator zero: its quotient digit is zero. -/
theorem val_redFn_of_zero {t q : Limbs} (hl : t.length = q.length) (hne : q ≠ []) (ht : val t = 0) :
    val (redFn t 0 q 0).1 = 0 := by
  obtain ⟨-, hval, -⟩ := redIsExactUpToTheShift q.length t q 0 0 (List.length_pos_of_ne_nil hne) hl rfl
  simpa [ht] using hval

theorem quotientDigit_zero (qinv0 : Word) : quotientDigit 0 qinv0 = 0 := by
  simp [quotientDigit, mulLo, lo64]

theorem headD_eq_zero_of_val {v : Limbs} (h : val v = 0) : v.headD 0 = 0 := by
  cases v with
  | nil => rfl
  | cons d ds => exact BitVec.eq_of_toNat_eq (Nat.eq_zero_of_add_eq_zero_right h)

section ZeroSource

variable {x q : Limbs} {qinv0 : Word} (hx : x.length = q.length) (hne : q ≠ [])
include hx hne

/-- An iteration whose product is zero keeps a zero accumulator zero. -/
theorem val_coreIteration_of_zero {t : Limbs} (hl : t.length = q.length) (ht : val t = 0) {yi : Word}
    (hzero : val x * yi.toNat = 0) : val (coreIteration x q qinv0 t yi) = 0 := by
  have hsum := val_macFn t x yi (hl.trans hx.symm)
  rw [ht, hzero] at hsum
  obtain ⟨hlimbs, hcarry⟩ := Nat.add_eq_zero_iff.mp hsum
  have hpos : 0 < radix t.length := Nat.zero_lt_of_lt (val_lt_radix t)
  have ha : (macFn t x yi).2 = 0 :=
    BitVec.eq_of_toNat_eq ((Nat.mul_eq_zero.mp hcarry).resolve_left hpos.ne')
  have hmacl : (macFn t x yi).1.length = q.length := by rw [macFn_length, hl, hx, Nat.min_self]
  rw [coreIteration, headD_eq_zero_of_val hlimbs, quotientDigit_zero, ha]
  exact val_redFn_of_zero hmacl hne hlimbs

theorem val_foldl_coreIteration_of_zero (y : Limbs) {t : Limbs} (hl : t.length = q.length) (ht : val t = 0)
    (hzero : ∀ yi ∈ y, val x * yi.toNat = 0) : val (y.foldl (coreIteration x q qinv0) t) = 0 := by
  induction y generalizing t with
  | nil => exact ht
  | cons yi ys ih =>
    obtain ⟨hyi, hys⟩ := List.forall_mem_cons.mp hzero
    exact ih (coreIteration_length hx hne hl yi) (val_coreIteration_of_zero hx hne hl ht hyi) hys

/-- `FRED` of zero is zero for any modulus. -/
theorem montMul_of_zero (y : Limbs) (hzero : ∀ yi ∈ y, val x * yi.toNat = 0) :
    montMul x y q qinv0 = List.replicate q.length 0 := by
  have hcore : val (coreFn x y q qinv0) = 0 :=
    val_foldl_coreIteration_of_zero hx hne y List.length_replicate (val_replicate_zero _) hzero
  refine eq_of_val_eq ((montMul_length hx hne y qinv0).trans List.length_replicate.symm) ?_
  rw [montMul, val_fred _ _ (coreFn_length hx hne y qinv0), hcore, val_replicate_zero, Nat.zero_sub, ite_self]

end ZeroSource

/-- Settles O33: with a zero source every product that `MAC` adds is zero. -/
theorem zeroSourceGivesZero : Obligations.ZeroSourceGivesZero := by
  rintro w v q qinv0 hv rfl
  by_cases hne : q = []
  · subst hne
    obtain rfl := List.eq_nil_of_length_eq_zero hv
    exact ⟨rfl, rfl⟩
  · refine ⟨montMul_of_zero hv hne _ fun yi hyi => ?_, montMul_of_zero List.length_replicate hne _ fun yi _ => ?_⟩
    · rw [List.eq_of_mem_replicate hyi]
      rfl
    · rw [val_replicate_zero, Nat.zero_mul]

/-! ## Corner cases in contract -/

/-- The radix can be cancelled modulo an odd number. -/
theorem eq_of_radix_mul_modEq {w n a b : Nat} (hodd : n % 2 = 1) (h : radix w * a ≡ radix w * b [MOD n]) (ha : a < n) :
    a = b % n := by
  have hcop : Nat.gcd n (radix w) = 1 := (Nat.coprime_two_right.mpr (Nat.odd_iff.mpr hodd)).pow_right _
  exact (Nat.mod_eq_of_lt ha).symm.trans (Nat.ModEq.cancel_left_of_coprime hcop h)

section Corner

variable {w : Nat} {x y q : Limbs} {qinv0 : Word} (hw : 1 ≤ w) (hx : x.length = w) (hy : y.length = w)
  (hp : ParamsInDomain w q qinv0) (hlt : val x < val q)
include hw hx hy hp hlt

/-- A product whose second source is congruent to a multiple of `R` is the other factor times `x`, reduced. -/
theorem val_montMul_of_modEq_radix_mul {n : Nat} (hyn : val y ≡ radix w * n [MOD val q]) :
    val (montMul x y q qinv0) = val x * n % val q := by
  obtain ⟨hz, hmod⟩ := val_montMul hw hx hy hp hlt
  obtain ⟨⟨-, hodd, -⟩, -⟩ := hp
  refine eq_of_radix_mul_modEq hodd (hmod.trans ((hyn.mul_left _).trans ?_)) hz
  rw [Nat.mul_left_comm]

theorem val_montMul_mul_radix : val (montMul x y q qinv0) * radix w % val q = val x * val y % val q := by
  obtain ⟨-, hmod⟩ := val_montMul hw hx hy hp hlt
  rwa [Nat.mul_comm] at hmod

/-- Sources below the modulus may be exchanged: both products have the same `R`-fold. -/
theorem montMul_comm (hylt : val y < val q) : montMul x y q qinv0 = montMul y x q qinv0 := by
  obtain ⟨hz, hmod⟩ := val_montMul hw hx hy hp hlt
  obtain ⟨hz', hmod'⟩ := val_montMul hw hy hx hp hylt
  obtain ⟨⟨rfl, hodd, -⟩, -⟩ := hp
  have hne : q ≠ [] := List.ne_nil_of_length_pos hw
  rw [Nat.mul_comm (val y)] at hmod'
  refine eq_of_val_eq ((montMul_length hx hne y qinv0).trans (montMul_length hy hne x qinv0).symm) ?_
  rw [eq_of_radix_mul_modEq hodd (hmod.trans hmod'.symm) hz, Nat.mod_eq_of_lt hz']

end Corner

/-- `-1` squared is 1. -/
theorem pred_mul_pred_mod {n : Nat} (hn : 0 < n) : (n - 1) * (n - 1) % n = 1 % n := by
  obtain ⟨k, rfl⟩ := Nat.exists_eq_add_of_le' hn
  cases k with
  | zero => rfl
  | succ k =>
    have hsq : (k + 1 + 1 - 1) * (k + 1 + 1 - 1) = 1 + (k + 1 + 1) * k := by
      rw [Nat.add_sub_cancel]
      ring
    rw [hsq, Nat.add_mul_mod_self_left]

/-- Settles O34: each clause is what the congruence `R * z = x * y` says of its second source. -/
theorem montgomeryCornerCases : Obligations.MontgomeryCornerCases := by
  intro w x y q qinv0 hw hx hy hp hlt
  obtain ⟨⟨hq, -⟩, -⟩ := id hp
  have hfold := val_montMul_mul_radix hw hx hy hp hlt
  refine ⟨fun hyv => ?_, fun hyv => ?_, fun hyv => ?_, montMul_comm hw hx hy hp hlt, fun hxv hyv => ?_⟩
  · have hval : val (montMul x y q qinv0) = val x * 1 % val q :=
      val_montMul_of_modEq_radix_mul hw hx hy hp hlt (by rw [hyv, Nat.mul_one]; exact Nat.mod_modEq _ _)
    rw [Nat.mul_one, Nat.mod_eq_of_lt hlt] at hval
    have hlen := montMul_length (hx.trans hq.symm) (List.ne_nil_of_length_pos (hq ▸ hw)) y qinv0
    exact eq_of_val_eq (hlen.trans (hq.trans hx.symm)) hval
  · rw [hfold, hyv, Nat.mul_one, Nat.mod_eq_of_lt hlt]
  · refine val_montMul_of_modEq_radix_mul hw hx hy hp hlt ?_
    rw [hyv, Nat.pow_two]
    exact Nat.mod_modEq _ _
  · rw [hfold, hxv, hyv, pred_mul_pred_mod (Nat.zero_lt_of_lt hlt)]

end Sys2Proof.Machine
end

-- ==== The sequencer and its start (R82, R89, R140, R141, R145) ====
section
/-! PROOFS. A step in which nothing is accepted is the sequencer's, which `PH` chooses. `MUL` starts it, and its guards are those of
an ignored command. -/

namespace Sys2Proof.Machine

variable {s : State}

/-- A micro-operation asked for in another phase does nothing (R145). -/
theorem exec_microOp_of_otherPhase (s : State) :
    (s.ph ≠ .multiply → exec .mac s = .next s) ∧ (s.ph ≠ .quotient → exec .quot s = .next s) ∧
    (s.ph ≠ .reduce → exec .red s = .next s) ∧ (s.ph ≠ .finalReduce → exec .fred s = .next s) :=
  ⟨fun h => by simp [exec, execMac, h], fun h => by simp [exec, execQuot, h], fun h => by simp [exec, execRed, h],
    fun h => by simp [exec, execFred, h]⟩

/-- Settles O9: each of the three kinds of input lets the sequencer's step pass. -/
theorem sequencerStepChosenByPhase : Obligations.SequencerStepChosenByPhase := by
  refine ⟨fun s rest hh => ?_, exec_microOp_of_otherPhase⟩
  have hpasses : Passes s rest := by
    rcases hh with hh | hh | hh
    · exact .inl hh
    · exact .inr (.inl hh)
    · exact .inr (.inr (.inl hh))
  have hconsume : s.quiet.consume rest = { s with host := rest, rspValid := false } := rfl
  rw [step, hpasses.action, hconsume]
  cases hp : s.ph <;> simp only [sequencerAction, runAction]

/-- `MUL` in SETUP mode or with a slot out of range is ignored (R140). -/
theorem exec_mul_of_ignored {zd xs ys : Index} (hb : s.busy = false)
    (h : s.mode = .setup ∨ s.cfg.ne ≤ zd.toNat ∨ s.cfg.ne ≤ xs.toNat ∨ s.cfg.ne ≤ ys.toNat) :
    exec (.mul zd xs ys) s = ignore s :=
  have hd : decode (pack 0x8 zd xs ys) = .ok (.mul zd xs ys) := decode_of_encode rfl
  exec_of_ignoredCause hb hd (by simpa only [ignoredCause, hd] using h)

/-- Settles O20: the four ways a `MUL` can be answered, by the guards of its acceptance. -/
theorem mulStartsTheSequencer : Obligations.MulStartsTheSequencer := fun s zd xs ys =>
  ⟨congrArg some (pack_eq_or 0x8 zd xs ys), fun hb => by simp [exec, execMul, hb], exec_mul_of_ignored, exec_mul_started⟩

end Sys2Proof.Machine
end

-- ==== The Reducer and the result it commits (R181, R183, R184) ====
section
/-! PROOFS. The subtraction is exact up to its final borrow, so the borrow compares the two values, and the limbs that `FRED`
commits are those of the difference. -/

namespace Sys2Proof.Machine

section Subtraction

variable {t q : Limbs} (h : t.length = q.length)
include h

theorem val_subChain_lt : val (subChain t q false).1 < radix t.length := by
  have hlt := val_lt_radix (subChain t q false).1
  rwa [subChain_length, ← h, Nat.min_self] at hlt

/-- The final borrow is the comparison of the two values (R181). -/
theorem subChain_borrow : (subChain t q false).2 = decide (val t < val q) := by
  have hsub := val_subChain t q false h
  have hlt := val_subChain_lt h
  have hq := val_lt_radix q
  rw [← h] at hq
  cases hb : (subChain t q false).2 with
  | true =>
    simp only [hb, Bool.toNat_true, Bool.toNat_false] at hsub
    exact (decide_eq_true (by omega)).symm
  | false =>
    simp only [hb, Bool.toNat_false] at hsub
    exact (decide_eq_false (by omega)).symm

/-- The limbs of the subtraction are the difference modulo the radix (R181). -/
theorem val_subChain_mod : val (subChain t q false).1 = (val t + radix t.length - val q) % radix t.length := by
  have hsub := val_subChain t q false h
  have hlt := val_subChain_lt h
  cases hb : (subChain t q false).2 with
  | true =>
    simp only [hb, Bool.toNat_true, Bool.toNat_false] at hsub
    rw [show val t + radix t.length - val q = val (subChain t q false).1 by omega, Nat.mod_eq_of_lt hlt]
  | false =>
    simp only [hb, Bool.toNat_false] at hsub
    rw [show val t + radix t.length - val q = val (subChain t q false).1 + radix t.length by omega,
      Nat.add_mod_right, Nat.mod_eq_of_lt hlt]

/-- The limbs that `FRED` commits: those of the difference, or the accumulator as it is (R181). -/
theorem fred_eq_limbsOf :
    fred t q = if val q ≤ val t then limbsOf t.length (val t - val q) else t := by
  have hval := val_fred t q h
  have hlen := fred_length t q h
  split
  · next hle =>
    calc fred t q = limbsOf (fred t q).length (val (fred t q)) := (limbsOf_val _).symm
      _ = limbsOf t.length (val t - val q) := by rw [hlen, hval, if_pos hle]
  · next hgt => exact eq_of_val_eq hlen (by rw [hval, if_neg hgt])

/-- Out of contract, one subtraction is not enough (R184). -/
theorem val_fred_of_two_mul_le (hle : 2 * val q ≤ val t) : val (fred t q) = val t - val q := by
  rw [val_fred t q h, if_pos (by omega)]

end Subtraction

/-- Settles O30: in contract one subtraction is the remainder, out of contract it leaves at least the modulus. -/
theorem reducerSubtractsAtMostOnce : Obligations.ReducerSubtractsAtMostOnce := by
  refine fun t q h => ⟨val_fred_of_lt t q h, fun hle => ?_⟩
  have hval := val_fred_of_two_mul_le h hle
  exact ⟨hval, by omega⟩

/-- A `MUL` in progress has its destination in the element file (R140). -/
theorem State.Inv.destination_lt {s : State} (hs : s.Inv) (hp : s.ph ≠ .idle) : s.zd.toNat < s.e.length := by
  obtain ⟨⟨-, hlen, -⟩, hctl⟩ := hs
  obtain ⟨-, -, hz, -⟩ := hctl.in_progress hp
  rw [hlen]
  exact of_decide_eq_true hz

/-- Settles O28: `FRED` stores what the Reducer returns, and that is the difference or the accumulator, by the borrow. -/
theorem fredCommitsTheReducedValue : Obligations.FredCommitsTheReducedValue := by
  intro s hs hp
  obtain ⟨⟨-, -, -, hq, ht, -⟩, -⟩ := id hs
  have hlen : s.t.length = s.q.length := ht.trans hq.symm
  have hexec := exec_fred_of_inv hs hp
  rw [fred_eq_limbsOf hlen, ht] at hexec
  exact ⟨hs.destination_lt (by simp [hp]), subChain_borrow hlen, ht ▸ val_subChain_mod hlen, hexec⟩

end Sys2Proof.Machine
end

-- ==== Status and no-operation (R40, R190, R191) ====
section
/-! PROOFS. Both words are accepted whatever `BUSY` is, so only a reset keeps them from being ready. `RDST` returns the two bits
of `STATUS`; the invariant shuts out the value 1, since a busy block is in RUN mode. -/

namespace Sys2Proof.Machine

/-- Without a reset a word that is accepted also by a busy block is ready (R91, R230). -/
theorem cmdReady_of_acceptedWhileBusy {s : State} {w : CmdWord} (hw : decode w = .ok .nop ∨ decode w = .ok .rdst)
    (h : ∀ p r, s.host ≠ .reset p :: r) : cmdReady s w = true :=
  (heldCommandsWaitForTheMul.1 s w).mpr ⟨h, .inr hw⟩

/-- Bit 1 of `STATUS` is `MODE` (R40). -/
theorem statusWord_getLsbD_one (s : State) : (statusWord s).getLsbD 1 = true ↔ s.mode = .run := by
  rw [statusWord, BitVec.getLsbD_setWidth, BitVec.getLsbD_append]
  cases s.mode <;> simp [modeBit]

/-- The other bits of `STATUS` read as 0 (R40). -/
theorem statusWord_getLsbD_of_two_le (s : State) {j : Nat} (hj : 2 ≤ j) : (statusWord s).getLsbD j = false := by
  rw [statusWord, BitVec.getLsbD_setWidth, BitVec.getLsbD_of_ge _ j hj, Bool.and_false]

/-- What `RDST` returns during a `MUL`, which is in RUN mode (R129). -/
theorem State.Inv.statusWord_of_busy {s : State} (hs : s.Inv) (hb : s.busy = true) : statusWord s = 3 := by
  simp [statusWord, modeBit, hb, hs.mode_of_busy hb]

/-- The three values of `STATUS` that occur (R191). -/
theorem State.Inv.statusWord_values {s : State} (hs : s.Inv) :
    statusWord s = 0 ∨ statusWord s = 2 ∨ statusWord s = 3 := by
  cases hb : s.busy with
  | true => exact .inr (.inr (hs.statusWord_of_busy hb))
  | false =>
    rw [statusWord_of_free hb]
    split
    · exact .inr (.inl rfl)
    · exact .inl rfl

/-- `RDST` answers `STATUS`, which every state holds (R191). -/
theorem exec_rdst (s : State) : exec .rdst s = .next (s.respond (statusWord s)) :=
  loadWord_of_readLoc (l := .status) rfl

/-- Settles O21: the answer is `STATUS`, bit by bit, and the invariant leaves three of its values. -/
theorem rdstReturnsTheStatus : Obligations.RdstReturnsTheStatus := by
  have hd : decode 0x90000000 = .ok .rdst := decode_of_encode rfl
  exact ⟨rfl, fun s => ⟨cmdReady_of_acceptedWhileBusy (.inr hd), statusWord s, exec_rdst s,
    statusWord_getLsbD_zero s, statusWord_getLsbD_one s, fun _ => statusWord_getLsbD_of_two_le s,
    State.Inv.statusWord_values⟩⟩

/-- Settles O12: `NOP` answers 0, and its word is one of the two that a busy block accepts. -/
theorem nopChangesNothing : Obligations.NopChangesNothing := by
  have hd : decode 0x00000000 = .ok .nop := decode_of_encode rfl
  exact ⟨rfl, fun _ => ⟨cmdReady_of_acceptedWhileBusy (.inl hd), rfl⟩⟩

end Sys2Proof.Machine
end

-- ==== No exceptions (R200, R201, R203) ====
section
/-! PROOFS. What a reader would expect to trap is ignored or held (R201), and every storage word that the guards of an
instruction let it ask for is one that a state of the right shape holds. So the model's one fault is never answered. -/

namespace Sys2Proof.Machine

/-- Settles O48: whatever the step performs, its guards let it ask only for storage words that the invariant promises. -/
theorem noStepFaultsOrRefuses : Obligations.NoStepFaultsOrRefuses :=
  fun _ => State.Inv.exists_step

end Sys2Proof.Machine
end

-- ==== Reset (R230, R232) ====
section
/-! PROOFS. The step at a reset edge is `State.afterReset`, which reads the build parameters and the host's later inputs of the
state and nothing else: neither what the block was doing nor the presented command has a part in it. -/

namespace Sys2Proof.Machine

/-- At a reset edge no word is ready (R230). -/
theorem cmdReady_of_reset {s : State} {p : Option Command} {rest : List HostInput} (h : s.host = .reset p :: rest)
    (w : CmdWord) : cmdReady s w = false := by
  rw [← Bool.not_eq_true, cmdReady_eq_true, (resetAsserted_eq_true s).mpr ⟨p, rest, h⟩]
  exact fun ⟨hr, _⟩ => Bool.noConfusion hr

/-- After a reset the block is free, so only a further reset keeps a word from being ready (R91, R230). -/
theorem cmdReady_afterReset (s : State) {rest : List HostInput} (h : ∀ p r, rest ≠ .reset p :: r) (w : CmdWord) :
    cmdReady (s.afterReset rest) w = true :=
  (heldCommandsWaitForTheMul.1 _ w).mpr ⟨h, .inl rfl⟩

/-- A presented command has no part in the step of a reset (R230, R232). -/
theorem step_reset_eq {s : State} {p : Option Command} {rest : List HostInput} (h : s.host = .reset p :: rest)
    (other : Option Command) : step { s with host := .reset other :: rest } = step s :=
  (step_of_reset rfl).trans (step_of_reset h).symm

/-- Settles O10: the step ends in `State.afterReset`, whose fields are those of `State.resetWith` but for the inputs. -/
theorem resetInputRestoresTheResetState : Obligations.ResetInputRestoresTheResetState :=
  fun s _ rest h => ⟨cmdReady_of_reset h, s.afterReset rest, step_of_reset h,
    s.afterReset_mode rest, s.afterReset_busy rest, s.afterReset_ph rest, s.afterReset_rspValid rest,
    s.afterReset_cfg rest, s.afterReset_host rest, cmdReady_afterReset s, step_reset_eq h⟩

end Sys2Proof.Machine
end
